-- ==== Sys2Proof/Word.lean ====
section
/-! DEFINITION. The widths of the codec's values (spec/00_scope.md section 4.1, 4.2): `u8`, `u16` and byte sequences.
Every length and every offset is a plain `Nat` (rule R35). -/

namespace Sys2Proof

/-- `u8`, and the byte of every buffer (R31). -/
abbrev Byte := BitVec 8

/-- `u16`: `dataLength`, the command id and `frameTail`. -/
abbrev U16 := BitVec 16

/-- `Bytes`: a finite sequence of bytes, offset 0 first (R30: a buffer is a value, not a window onto memory). -/
abbrev Bytes := List Byte

end Sys2Proof
end

