-- ==== Sys2Proof/Config.lean ====
section
/-! DEFINITION. The parameters of an implementation (R4 to R8, R23), and the free values. The four open parameters are
constants without a body: no proof can see what they are. `Params` is the plain-data record by which one instance names
its parameters; State carries it, so that a statement over all states is a statement over all parameters. -/

namespace Sys2Proof

/-- `PMAX` (R8): the greatest length of a serialized payload a frame can hold. -/
abbrev pmax : Nat := 65535

/-- A value of a schema (`Val` of R101): the tuple of its field values (R105), in schema order. Every `Val` is finite by
S1 to S3, so every one of them can be written so (log entry 8, DESIGN CHOICE, safe). -/
abbrev Value := List Nat

/-- A `Schema` (R101): a width, a type of values (here the lists that `isVal` accepts), a decoder and an encoder, with
the laws S1 to S4 every schema in `REG` must obey. -/
structure Schema where
  width : Nat
  isVal : Value → Bool
  dec : Bytes → Value
  enc : Value → Bytes
  /-- `dec : Bytes -> Val` is defined on every byte sequence of length `W`. -/
  dec_isVal : ∀ b : Bytes, b.length = width → isVal (dec b) = true
  /-- S1 -/
  enc_length : ∀ v, isVal v = true → (enc v).length = width
  /-- S2 -/
  enc_dec : ∀ b : Bytes, b.length = width → enc (dec b) = b
  /-- S3 -/
  dec_enc : ∀ v, isVal v = true → dec (enc v) = v
  /-- S4 -/
  width_le : width ≤ 65533

/-- One field `(name_i, k_i)` of a fixed layout (R105): its name, which nothing reads, and its width in bytes. -/
structure LayoutField where
  name : String
  width : Nat
deriving DecidableEq, Repr

/-- How a registry row names its schema, as plain data: a fixed layout (R105), or the schema number `k` of the
environment, about which nothing is known but S1 to S4 (`Config.schema`). -/
inductive SchemaDesc
  | layout (fields : List LayoutField)
  | external (k : Nat)
deriving DecidableEq, Repr

/-- One row of the registry (R7, R64). -/
structure RegistryRow where
  id : U16
  schema : SchemaDesc
deriving DecidableEq, Repr

/-- How an instance names its `c8` (R5): the algorithm number `k` of the environment, about which nothing is known but
that it is a function of the byte sequence; or a bit-reflected cyclic redundancy check (PRESUMED, the shape of
`93_implementation_defined.md` GK2: no state has it unless its `params` say so, and reset does not; log entry 10). -/
inductive Checksum8
  | external (k : Nat)
  | reflectedCrc (poly init : Byte)
deriving DecidableEq, Repr

/-- How an instance names its `c16` (R6); as `Checksum8` (GK3). -/
inductive Checksum16
  | external (k : Nat)
  | reflectedCrc (poly init : U16)
deriving DecidableEq, Repr

/-- The parameters of one instance (R4 to R7): `SOF`, `c8`, `c16`, `REG`. Configuration: no operation writes them. -/
structure Params where
  sof : Byte
  alg8 : Checksum8
  alg16 : Checksum16
  registry : List RegistryRow
deriving DecidableEq, Repr

/-- `SOF` (R4, D1: OPEN). -/
opaque Config.sof : Byte

/-- The 8-bit checksum algorithms of the environment (R5, D2: OPEN); the configured one is number 0. -/
opaque Config.checksum8 : Nat → Bytes → Byte

/-- The 16-bit checksum algorithms of the environment (R6, D3: OPEN); the configured one is number 0. -/
opaque Config.checksum16 : Nat → Bytes → U16

/-- The schemas of the environment (R101, D4: OPEN), by number; `none` where there is none of that number. -/
opaque Config.schema : Nat → Option Schema

/-- The rows of the configured registry (R7, R64, D4: OPEN). -/
opaque Config.registry : List RegistryRow

/-- Free value: the bytes after the id that `enc_payload` would give a `Struct` whose id is not registered or whose value is
none of its schema's. Such a `Struct` is no `Payload` (R100) and no run brings one into the slot; log entry 11. -/
opaque Config.strayEnc : U16 → Value → Bytes

/-- Free value: a byte read past the end of a buffer. Every rule checks the length first (R33), so no run reads one;
log entry 12. -/
opaque Config.pastEnd : Nat → Byte

/-- The configured parameters, in place before the first operation (R202). -/
def Config.params : Params where
  sof := Config.sof
  alg8 := .external 0
  alg16 := .external 0
  registry := Config.registry

end Sys2Proof
end

