-- ==== Sys2Proof/Machine/Checksums.lean ====
section
/-! DEFINITION. The two checksum functions of an instance (R5, R6, R82): pure functions of the whole byte sequence.
Nothing is known of an `external` one. The bit-reflected cyclic redundancy check is the shape of
spec/93_implementation_defined.md GK2 and GK3, from outside the source (PRESUMED, log entry 10). -/

namespace Sys2Proof.Machine

/-- One of the eight rounds of a byte: `if c[0] = 1 then (c >> 1) xor poly else c >> 1`. -/
def crcBit {w : Nat} (poly c : BitVec w) : BitVec w :=
  if c.getLsbD 0 then (c >>> 1) ^^^ poly else c >>> 1

/-- `n` rounds. -/
def crcRounds {w : Nat} (poly : BitVec w) : Nat → BitVec w → BitVec w
  | 0, c => c
  | n + 1, c => crcRounds poly n (crcBit poly c)

/-- One byte: `c := c xor x` into the low byte, then eight rounds. -/
def crcByte {w : Nat} (poly c : BitVec w) (x : Byte) : BitVec w :=
  crcRounds poly 8 (c ^^^ x.setWidth w)

/-- The bit-reflected check of a byte sequence, bytes in order, from the value `c`. -/
def crcReflected {w : Nat} (poly : BitVec w) : BitVec w → Bytes → BitVec w
  | c, [] => c
  | c, x :: b => crcReflected poly (crcByte poly c x) b

/-- What an 8-bit checksum's name stands for. -/
def applyChecksum8 : Checksum8 → Bytes → Byte
  | .external k, b => Config.checksum8 k b
  | .reflectedCrc poly init, b => crcReflected poly init b

/-- What a 16-bit checksum's name stands for. -/
def applyChecksum16 : Checksum16 → Bytes → U16
  | .external k, b => Config.checksum16 k b
  | .reflectedCrc poly init, b => crcReflected poly init b

/-- `c8` of an instance (R5). -/
def c8 (P : Params) (b : Bytes) : Byte := applyChecksum8 P.alg8 b

/-- `c16` of an instance (R6). -/
def c16 (P : Params) (b : Bytes) : U16 := applyChecksum16 P.alg16 b

end Sys2Proof.Machine
end

