-- ==== Sys2Proof/Syntax.lean ====
section
/-! DEFINITION. The operations of the codec, WHOLE: one constructor of `Instr` per row of spec/opcode_table.json (rule
R58), the payload operand they carry (R100) and the operand record the host hands over (R22, R59). -/

namespace Sys2Proof

/-- A `Payload` (R100) as plain data. A `Struct` is a payload only when its id is registered and its value is one of the
schema's (`payloadTyped`, Machine/Operands.lean). -/
inductive Payload
  | struct (id : U16) (v : Value)
  | raw (id : U16) (data : Bytes)
deriving DecidableEq, Repr

/-- The 22 operations (R58), in the table's order, each with the operands its row names (R59). -/
inductive Instr
  | checksum8 (buf : Bytes)
  | checksum16 (buf : Bytes)
  | parseHeader (buf : Bytes)
  | serializeHeader (dl : U16) (seq : Byte)
  | parsePayload (buf : Bytes)
  | serializePayload (pay : Payload)
  | parseFrame (buf : Bytes)
  | recompute
  | serializeFrame
  | newFrameStruct (seq : Byte) (pay : Payload)
  | newFrameRaw (seq : Byte) (buf : Bytes)
  | setSeq (seq : Byte)
  | setPayloadRaw (buf : Bytes)
  | setPayloadStruct (pay : Payload)
  | getSeq
  | getDataLength
  | getHeaderChecksum
  | getFrameTail
  | getCmdId
  | getPayloadRaw
  | getPayloadStruct
  | dropFrame
deriving DecidableEq, Repr

/-- The interface fields from the host to the codec (R22): the record `(OP, operands)` of R59. All fields are there;
those the row of `OP` does not name are ignored. -/
structure Request where
  op : Byte
  aBuf : Bytes
  aSeq : Byte
  aDl : U16
  aPay : Payload
deriving DecidableEq, Repr

/-- The formats of R59: which operand fields an operation carries. -/
inductive Format
  | none
  | buf
  | seq
  | pay
  | dlSeq
  | seqPay
  | seqBuf
deriving DecidableEq, Repr

end Sys2Proof
end

