-- ==== Sys2Proof/Decode.lean ====
section
/-! DEFINITION. The operation codes (R58 to R60): `decode` reads the 8 bits of `OP` (mask 0xFF) and takes the operands
the row names; every other code is rejected by name. `encode` writes the record of an operation back, from the same
table. -/

namespace Sys2Proof

/-- Why a record is no operation. -/
inductive DecodeError
  /-- `OP` is not in the table of R58 (R60: 234 of the 256 values). -/
  | illegalOp (op : Byte)
deriving DecidableEq, Repr

/-- The operation a record stands for (R58, R59). An operand the row does not name is ignored. -/
def decode (r : Request) : Except DecodeError Instr :=
  match r.op.toNat with
  | 0x01 => .ok (.checksum8 r.aBuf)
  | 0x02 => .ok (.checksum16 r.aBuf)
  | 0x10 => .ok (.parseHeader r.aBuf)
  | 0x11 => .ok (.serializeHeader r.aDl r.aSeq)
  | 0x20 => .ok (.parsePayload r.aBuf)
  | 0x21 => .ok (.serializePayload r.aPay)
  | 0x30 => .ok (.parseFrame r.aBuf)
  | 0x31 => .ok .recompute
  | 0x32 => .ok .serializeFrame
  | 0x40 => .ok (.newFrameStruct r.aSeq r.aPay)
  | 0x41 => .ok (.newFrameRaw r.aSeq r.aBuf)
  | 0x50 => .ok (.setSeq r.aSeq)
  | 0x51 => .ok (.setPayloadRaw r.aBuf)
  | 0x52 => .ok (.setPayloadStruct r.aPay)
  | 0x60 => .ok .getSeq
  | 0x61 => .ok .getDataLength
  | 0x62 => .ok .getHeaderChecksum
  | 0x63 => .ok .getFrameTail
  | 0x64 => .ok .getCmdId
  | 0x65 => .ok .getPayloadRaw
  | 0x66 => .ok .getPayloadStruct
  | 0x70 => .ok .dropFrame
  | _ => .error (.illegalOp r.op)

/-- The `OP` of an operation (R58). -/
def opcodeOf : Instr → Byte
  | .checksum8 _ => 0x01
  | .checksum16 _ => 0x02
  | .parseHeader _ => 0x10
  | .serializeHeader _ _ => 0x11
  | .parsePayload _ => 0x20
  | .serializePayload _ => 0x21
  | .parseFrame _ => 0x30
  | .recompute => 0x31
  | .serializeFrame => 0x32
  | .newFrameStruct _ _ => 0x40
  | .newFrameRaw _ _ => 0x41
  | .setSeq _ => 0x50
  | .setPayloadRaw _ => 0x51
  | .setPayloadStruct _ => 0x52
  | .getSeq => 0x60
  | .getDataLength => 0x61
  | .getHeaderChecksum => 0x62
  | .getFrameTail => 0x63
  | .getCmdId => 0x64
  | .getPayloadRaw => 0x65
  | .getPayloadStruct => 0x66
  | .dropFrame => 0x70

/-- The `format` of an operation's row (R59). -/
def formatOf : Instr → Format
  | .checksum8 _ => .buf
  | .checksum16 _ => .buf
  | .parseHeader _ => .buf
  | .serializeHeader _ _ => .dlSeq
  | .parsePayload _ => .buf
  | .serializePayload _ => .pay
  | .parseFrame _ => .buf
  | .recompute => .none
  | .serializeFrame => .none
  | .newFrameStruct _ _ => .seqPay
  | .newFrameRaw _ _ => .seqBuf
  | .setSeq _ => .seq
  | .setPayloadRaw _ => .buf
  | .setPayloadStruct _ => .pay
  | .getSeq => .none
  | .getDataLength => .none
  | .getHeaderChecksum => .none
  | .getFrameTail => .none
  | .getCmdId => .none
  | .getPayloadRaw => .none
  | .getPayloadStruct => .none
  | .dropFrame => .none

/-- The record that carries `OP` alone: no buffer byte, every number zero, the payload operand `Raw(0, [])`
(log entry 13, DESIGN CHOICE, safe). -/
def bareRequest (op : Byte) : Request where
  op := op
  aBuf := []
  aSeq := 0
  aDl := 0
  aPay := .raw 0 []

/-- The record of an operation (R59): its `OP` and the operands its row names, the others as `bareRequest` has them. -/
def encode : Instr → Request
  | .checksum8 buf => { bareRequest 0x01 with aBuf := buf }
  | .checksum16 buf => { bareRequest 0x02 with aBuf := buf }
  | .parseHeader buf => { bareRequest 0x10 with aBuf := buf }
  | .serializeHeader dl seq => { bareRequest 0x11 with aDl := dl, aSeq := seq }
  | .parsePayload buf => { bareRequest 0x20 with aBuf := buf }
  | .serializePayload pay => { bareRequest 0x21 with aPay := pay }
  | .parseFrame buf => { bareRequest 0x30 with aBuf := buf }
  | .recompute => bareRequest 0x31
  | .serializeFrame => bareRequest 0x32
  | .newFrameStruct seq pay => { bareRequest 0x40 with aSeq := seq, aPay := pay }
  | .newFrameRaw seq buf => { bareRequest 0x41 with aSeq := seq, aBuf := buf }
  | .setSeq seq => { bareRequest 0x50 with aSeq := seq }
  | .setPayloadRaw buf => { bareRequest 0x51 with aBuf := buf }
  | .setPayloadStruct pay => { bareRequest 0x52 with aPay := pay }
  | .getSeq => bareRequest 0x60
  | .getDataLength => bareRequest 0x61
  | .getHeaderChecksum => bareRequest 0x62
  | .getFrameTail => bareRequest 0x63
  | .getCmdId => bareRequest 0x64
  | .getPayloadRaw => bareRequest 0x65
  | .getPayloadStruct => bareRequest 0x66
  | .dropFrame => bareRequest 0x70

/-- Two records agree on the operands a format names (R59). -/
def agreeOn (f : Format) (r r' : Request) : Prop :=
  match f with
  | .none => True
  | .buf => r.aBuf = r'.aBuf
  | .seq => r.aSeq = r'.aSeq
  | .pay => r.aPay = r'.aPay
  | .dlSeq => r.aDl = r'.aDl ∧ r.aSeq = r'.aSeq
  | .seqPay => r.aSeq = r'.aSeq ∧ r.aPay = r'.aPay
  | .seqBuf => r.aSeq = r'.aSeq ∧ r.aBuf = r'.aBuf

/-- The record of a table word: the table's bits are the 8 bits of `OP`; the operands, which it gives no bits, are empty
or zero. -/
def tableRequest (w : Nat) : Request := bareRequest (BitVec.ofNat 8 w)

/-- The operation the decoder reads from a table word (the host's fixed name). A row of the table has 8 bits; a word of
another length is no row of it. -/
def decodeTableWord (nbits w : Nat) : Option Instr :=
  if nbits = 8 then
    match decode (tableRequest w) with
    | .ok i => some i
    | .error _ => none
  else none

end Sys2Proof
end

