-- ==== Sys2Proof/Machine/State.lean ====
section
/-! DEFINITION. The state of one codec instance (spec/10_state.md) as plain data, and the reasons a step can stop. -/

namespace Sys2Proof.Machine

/-- The six error kinds (R170). -/
inductive ErrKind
  | tooShort
  | badStartMarker
  | crc8Mismatch
  | crc16Mismatch
  | schemaLengthMismatch
  | trailingBytes
deriving DecidableEq, Repr

/-- The three interface refusals (R178). They are results, not a stop of the machine. -/
inductive RefuseKind
  | noFrame
  | tooLong
  | illegal
deriving DecidableEq, Repr

/-- The status `ST` (R22, R170, R178); `statusCode` gives its number. -/
inductive Status
  | ok
  | error (k : ErrKind)
  | refused (x : RefuseKind)
deriving DecidableEq, Repr

/-- The error context `STAGE` (R177); `stageCode` gives its number. -/
inductive Stage
  | none
  | hdr
  | pay
  | frm
deriving DecidableEq, Repr

/-- How an operation ends without success (spec/00_scope.md 4.3): `raise K(stage)` or `refuse X`. -/
inductive Failure
  | raise (k : ErrKind) (g : Stage)
  | refuse (x : RefuseKind)
deriving DecidableEq, Repr

/-- A header triple `(dl, seq, hc)` (R27, R90). -/
structure Header where
  dl : U16
  seq : Byte
  hc : Byte
deriving DecidableEq, Repr

/-- The value result `R_VAL` (R22): that of a checksum, a parse or a GET. -/
inductive ResultValue
  | u8 (v : Byte)
  | u16 (v : U16)
  | header (h : Header)
  | payload (p : Payload)
deriving DecidableEq, Repr

/-- The interface fields from the codec to the host (R22). `none` in `rBuf` or `rVal` says that the operation has no
result of that kind (R180: on an error or a refusal there is no value at all). -/
structure Response where
  st : Status
  stage : Stage
  rBuf : Option Bytes
  rVal : Option ResultValue
deriving DecidableEq, Repr

/-- The fields of the frame slot (R11 to R17, R19). -/
structure Frame where
  dl : U16
  seq : Byte
  hc : Byte
  tail : U16
  payload : Payload
  dirty : Bool
deriving DecidableEq, Repr

/-- `FV` and `F` together: `empty` is `FV = 0`, where the fields of `F` have no value (R201: "it must not pick zero");
`held f` is `FV = 1` with the fields `f` (log entry 2). -/
inductive Slot
  | empty
  | held (f : Frame)
deriving DecidableEq, Repr

/-- The state of an instance. `slot` is what the spec calls its state (R10). `params` is its configuration, which no
operation writes (log entry 1). `requests` and `results` stand for the host: the operations it will still issue, the
next one first (log entry 4), and the results it has received, the newest first (log entry 5). -/
structure State where
  slot : Slot
  params : Params
  requests : List Request
  results : List Response
deriving DecidableEq, Repr

/-- Why the machine stops with a fault: never. "There is no stuck state and no hang" (R182), and `fault` is a treatment
the spec does not use (spec/93_implementation_defined.md part 1). Safe. -/
inductive Fault
deriving DecidableEq, Repr

/-- Why an instruction has no meaning. -/
inductive Refusal
  /-- Raised by an arm of `exec` that has no meaning yet; no arm is. Safe. -/
  | notModelled (mnemonic : String)
deriving DecidableEq, Repr

/-- What one operation, or one step, answers. -/
abbrev StepOutcome := Host.Outcome State Fault Refusal

/-- `FV` (R12). -/
def State.fv (s : State) : Bool :=
  match s.slot with
  | .empty => false
  | .held _ => true

/-- Reset (R200, R201): `FV = 0`, no field of `F` has a value, the parameters hold their configured values; the host has
issued nothing and received nothing. -/
def State.reset : State where
  slot := .empty
  params := Config.params
  requests := []
  results := []

end Sys2Proof.Machine
end

