-- ==== Sys2Proof/Machine/Flags.lean ====
section
/-! DEFINITION. The two flags (R21): `FV`, which says whether the slot holds a frame (R12), and `F.dirty` (R19). -/

namespace Sys2Proof.Machine

/-- `F.dirty <- 1` (R19): what every successful SET does. -/
def markDirty (f : Frame) : Frame := { f with dirty := true }

/-- `F.dirty <- 0` (R19): what RECOMPUTE and every load do. -/
def markFresh (f : Frame) : Frame := { f with dirty := false }

/-- The states of the state machine of R123. -/
inductive FramePhase
  | empty
  | fresh
  | dirty
deriving DecidableEq, Repr

/-- The state of the slot in the state machine of R123: Empty is `FV = 0`; Fresh and Dirty are told apart by `F.dirty`. -/
def phaseOf : Slot → FramePhase
  | .empty => .empty
  | .held f => if f.dirty then .dirty else .fresh

end Sys2Proof.Machine
end

