-- ==== Sys2Proof/Machine/Ops.lean ====
section
/-! DEFINITION. How an operation ends, said once: success, an error kind or a refusal (R178, R180, R181); the access to the
frame slot; and what a step does around an operation. -/

namespace Sys2Proof.Machine

/-- The number of `ST` (R170, R178; D11). -/
def statusCode : Status → Byte
  | .ok => 0x00
  | .error .tooShort => 0x01
  | .error .badStartMarker => 0x02
  | .error .crc8Mismatch => 0x03
  | .error .crc16Mismatch => 0x04
  | .error .schemaLengthMismatch => 0x05
  | .error .trailingBytes => 0x06
  | .refused .noFrame => 0x80
  | .refused .tooLong => 0x81
  | .refused .illegal => 0xFF

/-- The number of `STAGE` (R177; D12). -/
def stageCode : Stage → BitVec 2
  | .none => 0
  | .hdr => 1
  | .pay => 2
  | .frm => 3

/-- The results of an operation that succeeds: `ST = 0x00`, `STAGE = 0` (R170, R177). -/
def okResponse (rBuf : Option Bytes) (rVal : Option ResultValue) : Response where
  st := .ok
  stage := .none
  rBuf := rBuf
  rVal := rVal

/-- The results of an operation that fails (R177, R178, R180): its status, the stage of an error and stage 0 of a refusal,
and no value (log entry 7). -/
def failResponse : Failure → Response
  | .raise k g => { st := .error k, stage := g, rBuf := .none, rVal := .none }
  | .refuse x => { st := .refused x, stage := .none, rBuf := .none, rVal := .none }

/-- The host receives the results of an operation (R191). -/
def State.answer (s : State) (r : Response) : State := { s with results := r :: s.results }

/-- The slot becomes `x`. -/
def State.withSlot (s : State) (x : Slot) : State := { s with slot := x }

/-- TAKING AN EXCEPTION, the one operation for every error kind and refusal: atomic failure (R180). The host receives the
status and the stage; no state field is written, nothing is saved, no handler is entered, control stays with the host.
There is no return from an exception: nothing is to be acknowledged, the next operation runs as if the failed one had not
been issued (R181). -/
def State.fail (s : State) (e : Failure) : StepOutcome := .next (s.answer (failResponse e))

/-- The operation succeeds: the slot holds `x` from its end on, the host receives the results. -/
def State.finish (s : State) (x : Slot) (rBuf : Option Bytes) (rVal : Option ResultValue) : StepOutcome :=
  .next ((s.withSlot x).answer (okResponse rBuf rVal))

/-- `return ok(v)` with a value result and no state written. -/
def State.finishValue (s : State) (v : ResultValue) : StepOutcome := s.finish s.slot .none (some v)

/-- `return ok(OUT)` with a byte result and no state written. -/
def State.finishBytes (s : State) (b : Bytes) : StepOutcome := s.finish s.slot (some b) .none

/-- `return ok(())` after the slot is written. -/
def State.finishSlot (s : State) (x : Slot) : StepOutcome := s.finish x .none .none

/-- `if FV = 0 then refuse NO_FRAME`, else the operation on the frame held (R178). -/
def State.onFrame (s : State) (k : Frame → StepOutcome) : StepOutcome :=
  match s.slot with
  | .empty => s.fail (.refuse .noFrame)
  | .held f => k f

/-- The operation the host issues next (R20, R22); `none` where it issues none. -/
def State.pending (s : State) : Option Request := s.requests.head?

/-- The codec with no operation to perform: "idle and keeps `FV` and `F`" (R190). -/
def State.idle (s : State) : StepOutcome := .next s

/-- A record whose `OP` is not in the table (R60, R178). -/
def State.rejectRequest (s : State) : DecodeError → StepOutcome
  | .illegalOp _ => s.fail (.refuse .illegal)

/-- The operation is complete: the host goes on to its next one (R40). -/
def retire : StepOutcome → StepOutcome
  | .next s => .next { s with requests := s.requests.tail }
  | .fault r => .fault r
  | .refused r => .refused r

end Sys2Proof.Machine
end

