-- ==== Sys2Proof/Machine/ChecksumEngine.lean ====
section
/-! DEFINITION. The checksum engines (spec/40_checksum.md). -/

namespace Sys2Proof.Machine

/-- CHECKSUM8 (R80): legal with `FV = 0`, never fails, writes nothing. -/
def execChecksum8 (buf : Bytes) (s : State) : StepOutcome := s.finishValue (.u8 (c8 s.params buf))

/-- CHECKSUM16 (R81). -/
def execChecksum16 (buf : Bytes) (s : State) : StepOutcome := s.finishValue (.u16 (c16 s.params buf))

end Sys2Proof.Machine
end

