-- ==== Sys2Proof/Machine/Buffers.lean ====
section
/-! DEFINITION. Byte buffers: offsets, slices and byte order (spec/20_memory.md, spec/00_scope.md section 4.2). -/

namespace Sys2Proof.Machine

/-- `b[i]`. Defined only for `i < len(b)`: past the end the value is free (log entry 12); every rule checks the length
before it reads (R33). -/
def byteAt (b : Bytes) (i : Nat) : Byte := b.getD i (Config.pastEnd i)

/-- `b[i..j)`. -/
def slice (b : Bytes) (i j : Nat) : Bytes := (b.drop i).take (j - i)

/-- `LE16(v) = [v[7:0], v[15:8]]`. -/
def le16 (v : U16) : Bytes := [v.extractLsb' 0 8, v.extractLsb' 8 8]

/-- The 16-bit value whose low byte is `lo` and whose high byte is `hi`: `lo + 256 * hi` (R55). -/
def ofLE16 (lo hi : Byte) : U16 := hi ++ lo

/-- `MemRead(b, off, 2) = rdLE16(b, off)` (R33). -/
def rdLE16 (b : Bytes) (off : Nat) : U16 := ofLE16 (byteAt b off) (byteAt b (off + 1))

/-- The `k` bytes of `n`, least significant first (R105). -/
def leBytes : Nat → Nat → Bytes
  | 0, _ => []
  | k + 1, n => BitVec.ofNat 8 n :: leBytes k (n / 256)

/-- The number whose bytes, least significant first, are `b` (R105). -/
def leNat : Bytes → Nat
  | [] => 0
  | x :: b => x.toNat + 256 * leNat b

end Sys2Proof.Machine
end

