-- ==== Sys2Proof/Machine/HeaderCodec.lean ====
section
/-! DEFINITION. The header codec (spec/41_header_codec.md, spec/30_encoding.md R51). Both operations are pure. -/

namespace Sys2Proof.Machine

/-- The decoding of a header, checks in the order of R90: length, marker, checksum. -/
def parseHeader (P : Params) (buf : Bytes) : Except Failure Header :=
  if buf.length < 5 then .error (.raise .tooShort .hdr)
  else if byteAt buf 0 ≠ P.sof then .error (.raise .badStartMarker .hdr)
  else if c8 P (slice buf 0 4) ≠ byteAt buf 4 then .error (.raise .crc8Mismatch .hdr)
  else .ok { dl := rdLE16 buf 1, seq := byteAt buf 3, hc := byteAt buf 4 }

/-- The four header bytes before the checksum (R51): marker, `dataLength` low byte first, `seq`. -/
def headerPrefix (P : Params) (dl : U16) (seq : Byte) : Bytes := [P.sof] ++ le16 dl ++ [seq]

/-- `headerChecksum` of a header with these fields (R15). -/
def headerChecksum (P : Params) (dl : U16) (seq : Byte) : Byte := c8 P (headerPrefix P dl seq)

/-- The five bytes of a header (R91): the checksum is computed, never taken from a stored value. -/
def headerBytes (P : Params) (dl : U16) (seq : Byte) : Bytes := headerPrefix P dl seq ++ [headerChecksum P dl seq]

/-- PARSE_HEADER (R90). -/
def execParseHeader (buf : Bytes) (s : State) : StepOutcome :=
  match parseHeader s.params buf with
  | .error e => s.fail e
  | .ok h => s.finishValue (.header h)

/-- SERIALIZE_HEADER (R91): never fails. -/
def execSerializeHeader (dl : U16) (seq : Byte) (s : State) : StepOutcome :=
  s.finishBytes (headerBytes s.params dl seq)

end Sys2Proof.Machine
end

