-- ==== Sys2Proof/Machine/FixedLayout.lean ====
section
/-! DEFINITION. The fixed-layout schema class (R105): a list of unsigned little-endian fields of one or more bytes each,
no padding. The laws S1 to S3 (R101) are proved here because a `Schema` carries them. -/

namespace Sys2Proof.Machine

/-- `W = k_1 + ... + k_n`. -/
def layoutWidth : List LayoutField → Nat
  | [] => 0
  | f :: fs => f.width + layoutWidth fs

/-- Each `k_i >= 1` (R105), and S4. -/
def layoutOk (fs : List LayoutField) : Bool :=
  fs.all (fun f => 1 ≤ f.width) && layoutWidth fs ≤ 65533

/-- `Val` of a layout: one number per field, `0 <= v_i < 2^(8 * k_i)`. -/
def layoutIsVal : List LayoutField → Value → Bool
  | [], [] => true
  | f :: fs, x :: v => decide (x < 2 ^ (8 * f.width)) && layoutIsVal fs v
  | _, _ => false

/-- `enc` of a layout: the fields in order, each least significant byte first. -/
def layoutEnc : List LayoutField → Value → Bytes
  | f :: fs, x :: v => leBytes f.width x ++ layoutEnc fs v
  | _, _ => []

/-- `dec` of a layout. -/
def layoutDec : List LayoutField → Bytes → Value
  | [], _ => []
  | f :: fs, b => leNat (b.take f.width) :: layoutDec fs (b.drop f.width)

theorem leBytes_length (k n : Nat) : (leBytes k n).length = k := by
  induction k generalizing n with
  | zero => rfl
  | succ k ih => simp [leBytes, ih]

theorem leNat_lt (b : Bytes) : leNat b < 2 ^ (8 * b.length) := by
  induction b with
  | nil => simp [leNat]
  | cons x b ih =>
    have hx := x.isLt
    have : 2 ^ (8 * (x :: b).length) = 256 * 2 ^ (8 * b.length) := by
      rw [List.length_cons, Nat.mul_add, Nat.pow_add]; omega
    simp only [leNat]
    omega

theorem leNat_leBytes (k n : Nat) (h : n < 2 ^ (8 * k)) : leNat (leBytes k n) = n := by
  induction k generalizing n with
  | zero => simp at h; simp [leBytes, leNat, h]
  | succ k ih =>
    have hp : 2 ^ (8 * (k + 1)) = 256 * 2 ^ (8 * k) := by
      rw [Nat.mul_add, Nat.pow_add]; omega
    have := ih (n / 256) (by omega)
    simp only [leBytes, leNat, this, BitVec.toNat_ofNat]
    omega

theorem leBytes_leNat (b : Bytes) : leBytes b.length (leNat b) = b := by
  induction b with
  | nil => rfl
  | cons x b ih =>
    have hx := x.isLt
    have hd : (x.toNat + 256 * leNat b) / 256 = leNat b := by omega
    have hm : BitVec.ofNat 8 (x.toNat + 256 * leNat b) = x := by
      apply BitVec.eq_of_toNat_eq
      rw [BitVec.toNat_ofNat]
      omega
    simp only [List.length_cons, leBytes, leNat, hd, hm, ih]

/-- S1 of a layout. -/
theorem layoutEnc_length (fs : List LayoutField) (v : Value) (h : layoutIsVal fs v = true) :
    (layoutEnc fs v).length = layoutWidth fs := by
  induction fs generalizing v with
  | nil => simp [layoutEnc, layoutWidth]
  | cons f fs ih =>
    cases v with
    | nil => simp [layoutIsVal] at h
    | cons x v =>
      simp only [layoutIsVal, Bool.and_eq_true] at h
      simp [layoutEnc, layoutWidth, leBytes_length, ih v h.2]

/-- A decoded byte sequence is a value of the layout. -/
theorem layoutDec_isVal (fs : List LayoutField) (b : Bytes) (h : b.length = layoutWidth fs) :
    layoutIsVal fs (layoutDec fs b) = true := by
  induction fs generalizing b with
  | nil => rfl
  | cons f fs ih =>
    simp only [layoutWidth] at h
    have ht : (b.take f.width).length = f.width := by rw [List.length_take]; omega
    have hl := leNat_lt (b.take f.width)
    rw [ht] at hl
    simp only [layoutDec, layoutIsVal, Bool.and_eq_true, decide_eq_true_eq]
    exact ⟨hl, ih (b.drop f.width) (by rw [List.length_drop]; omega)⟩

/-- S2 of a layout. -/
theorem layoutEnc_layoutDec (fs : List LayoutField) (b : Bytes) (h : b.length = layoutWidth fs) :
    layoutEnc fs (layoutDec fs b) = b := by
  induction fs generalizing b with
  | nil => exact (List.length_eq_zero_iff.mp h).symm
  | cons f fs ih =>
    simp only [layoutWidth] at h
    have ht : (b.take f.width).length = f.width := by rw [List.length_take]; omega
    have hb := leBytes_leNat (b.take f.width)
    rw [ht] at hb
    simp only [layoutDec, layoutEnc, hb, ih (b.drop f.width) (by rw [List.length_drop]; omega),
      List.take_append_drop]

/-- S3 of a layout. -/
theorem layoutDec_layoutEnc (fs : List LayoutField) (v : Value) (h : layoutIsVal fs v = true) :
    layoutDec fs (layoutEnc fs v) = v := by
  induction fs generalizing v with
  | nil =>
    cases v with
    | nil => rfl
    | cons x v => simp [layoutIsVal] at h
  | cons f fs ih =>
    cases v with
    | nil => simp [layoutIsVal] at h
    | cons x v =>
      simp only [layoutIsVal, Bool.and_eq_true, decide_eq_true_eq] at h
      have hl := leBytes_length f.width x
      simp only [layoutEnc, layoutDec]
      rw [List.take_left' hl, List.drop_left' hl, leNat_leBytes _ _ h.1, ih v h.2]

/-- The schema of a layout (R105). -/
def layoutSchema (fs : List LayoutField) (h : layoutWidth fs ≤ 65533) : Schema where
  width := layoutWidth fs
  isVal := layoutIsVal fs
  dec := layoutDec fs
  enc := layoutEnc fs
  dec_isVal := layoutDec_isVal fs
  enc_length := layoutEnc_length fs
  enc_dec := layoutEnc_layoutDec fs
  dec_enc := layoutDec_layoutEnc fs
  width_le := h

theorem layoutOk_width {fs : List LayoutField} (h : layoutOk fs = true) : layoutWidth fs ≤ 65533 := by
  simp only [layoutOk, Bool.and_eq_true, decide_eq_true_eq] at h
  exact h.2

/-- The schema a description stands for: that of a layout when it is one of R105 within S4, the environment's otherwise.
A description that stands for none leaves its id unregistered (log entry 9). -/
def schemaOf : SchemaDesc → Option Schema
  | .layout fs => if h : layoutOk fs = true then some (layoutSchema fs (layoutOk_width h)) else none
  | .external k => Config.schema k

end Sys2Proof.Machine
end

