-- ==== Sys2Proof/Machine/Operands.lean ====
section
/-! DEFINITION. The operand forms: the registry lookup (R63, R102), the serialized form and the command id of a payload
(R100), and what makes an operand one that an operation takes (R104, R140, R141, R178). -/

namespace Sys2Proof.Machine

/-- `lookup(id)` (R102): exact match on the 16 bits of the id; `some` is "found", `none` "not found". The first row of an
id is its row (log entry 9). It reads the parameters only. -/
def lookup (P : Params) (id : U16) : Option Schema :=
  match P.registry.find? (fun row => row.id == id) with
  | some row => schemaOf row.schema
  | none => none

/-- `cmd_id(p)` (R100). -/
def cmdId : Payload → U16
  | .struct id _ => id
  | .raw id _ => id

/-- `REG(id).enc(v)` for a `Struct` that is a `Payload` (R100). Where the id is not registered, or `v` is no value of its
schema, the spec gives no bytes and they are a free value (log entry 11, DESIGN CHOICE, safe). -/
def structBytes (P : Params) (id : U16) (v : Value) : Bytes :=
  match lookup P id with
  | some S => if S.isVal v then S.enc v else Config.strayEnc id v
  | none => Config.strayEnc id v

/-- `enc_payload(p)` (R100); what it gives on a `Struct` that is no `Payload` is said at `structBytes`. -/
def encPayload (P : Params) : Payload → Bytes
  | .struct id v => le16 id ++ structBytes P id v
  | .raw id data => le16 id ++ data

/-- The value is one of the schema registered for the id (R100: `v : Val(REG(id))`, `id` in `dom(REG)`). -/
def structTyped (P : Params) (id : U16) (v : Value) : Bool :=
  match lookup P id with
  | some S => S.isVal v
  | none => false

/-- The operand is a `Payload` (R100, R104): a well-typed `Struct`, or any `Raw`. -/
def payloadTyped (P : Params) : Payload → Bool
  | .struct id v => structTyped P id v
  | .raw _ _ => true

/-- The operand is a `Struct` (R140, R145, R178). -/
def isStruct : Payload → Bool
  | .struct _ _ => true
  | .raw _ _ => false

/-- The operand is a well-typed `Struct`, as NEW_FRAME_STRUCT and SET_PAYLOAD_STRUCT require (R140, R145). -/
def structOperand (P : Params) (p : Payload) : Bool := isStruct p && payloadTyped P p

/-- The raw command bytes are not longer than a frame can hold (R8, R141, R178). -/
def rawFits (bytes : Bytes) : Bool := bytes.length ≤ pmax

end Sys2Proof.Machine
end

