-- ==== Sys2Proof/Machine/PayloadDispatch.lean ====
section
/-! DEFINITION. The payload dispatcher (spec/42_payload_dispatch.md). Both operations are pure. -/

namespace Sys2Proof.Machine

/-- The dispatch of a payload's bytes by their command id (R103): a registered id selects its schema, every other id the
opaque variant. -/
def parsePayload (P : Params) (buf : Bytes) : Except Failure Payload :=
  if buf.length < 2 then .error (.raise .tooShort .pay)
  else
    let id := rdLE16 buf 0
    let rest := slice buf 2 buf.length
    match lookup P id with
    | some S =>
      if rest.length ≠ S.width then .error (.raise .schemaLengthMismatch .pay)
      else .ok (.struct id (S.dec rest))
    | none => .ok (.raw id rest)

/-- PARSE_PAYLOAD (R103). -/
def execParsePayload (buf : Bytes) (s : State) : StepOutcome :=
  match parsePayload s.params buf with
  | .error e => s.fail e
  | .ok p => s.finishValue (.payload p)

/-- SERIALIZE_PAYLOAD (R104): an operand that is no `Payload` is refused; a `Raw` is emitted unchanged, whatever its id. -/
def execSerializePayload (pay : Payload) (s : State) : StepOutcome :=
  if payloadTyped s.params pay then s.finishBytes (encPayload s.params pay)
  else s.fail (.refuse .illegal)

end Sys2Proof.Machine
end

