-- ==== Sys2Proof/Machine/FrameAssembler.lean ====
section
/-! DEFINITION. The frame assembler (spec/43_frame_assembler.md). -/

namespace Sys2Proof.Machine

/-- The validation of one whole frame (R120), in the order of R179: header, length, tail, payload. Lengths are natural
numbers (R35): `n` can be 65542. -/
def parseFrame (P : Params) (buf : Bytes) : Except Failure Frame :=
  match parseHeader P buf with
  | .error e => .error e
  | .ok h =>
    let stop := 5 + h.dl.toNat
    let n := stop + 2
    if buf.length < n then .error (.raise .tooShort .frm)
    else if buf.length > n then .error (.raise .trailingBytes .frm)
    else
      let tail := rdLE16 buf stop
      if c16 P (slice buf 0 stop) ≠ tail then .error (.raise .crc16Mismatch .frm)
      else
        match parsePayload P (slice buf 5 stop) with
        | .error e => .error e
        | .ok p => .ok { dl := h.dl, seq := h.seq, hc := h.hc, tail := tail, payload := p, dirty := false }

/-- The `dataLength` of a payload (R13, R121 step 1): the length of its bytes, id included. -/
def payloadLength (P : Params) (p : Payload) : U16 := BitVec.ofNat 16 (encPayload P p).length

/-- The bytes a frame's tail covers (R53): the five header bytes and the payload bytes. -/
def coveredBytes (P : Params) (seq : Byte) (p : Payload) : Bytes :=
  headerBytes P (payloadLength P p) seq ++ encPayload P p

/-- The Fresh frame of a sequence number and a payload: the length and both checksums derived from them and from nothing
else (R121). -/
def freshFrame (P : Params) (seq : Byte) (p : Payload) : Frame :=
  markFresh
    { dl := payloadLength P p
      seq := seq
      hc := headerChecksum P (payloadLength P p) seq
      tail := c16 P (coveredBytes P seq p)
      payload := p
      dirty := false }

/-- `RECOMPUTE()` on the frame held (R121): `F.seq` and `F.payload` stay, the rest is derived from them. -/
def recompute (P : Params) (f : Frame) : Frame := freshFrame P f.seq f.payload

/-- The bytes of a frame whose derived fields are up to date (R122): header, payload, tail low byte first. -/
def frameBytes (P : Params) (f : Frame) : Bytes :=
  headerBytes P f.dl f.seq ++ encPayload P f.payload ++ le16 f.tail

/-- PARSE_FRAME (R120): loads the slot, whatever it held (D30); on an error the slot stays. -/
def execParseFrame (buf : Bytes) (s : State) : StepOutcome :=
  match parseFrame s.params buf with
  | .error e => s.fail e
  | .ok f => s.finishSlot (.held f)

/-- RECOMPUTE (R121). -/
def execRecompute (s : State) : StepOutcome :=
  s.onFrame fun f => s.finishSlot (.held (recompute s.params f))

/-- SERIALIZE_FRAME (R122): recomputes always, then emits. -/
def execSerializeFrame (s : State) : StepOutcome :=
  s.onFrame fun f =>
    s.finish (.held (recompute s.params f)) (some (frameBytes s.params (recompute s.params f))) .none

end Sys2Proof.Machine
end

