-- ==== Sys2Proof/Machine/FrameAccess.lean ====
section
/-! DEFINITION. Construction, mutation, access and destruction of the frame (spec/44_frame_access.md). `ILLEGAL` comes
before every other refusal (R179). -/

namespace Sys2Proof.Machine

/-- NEW_FRAME_STRUCT (R140): the constructor recomputes before it returns, so the frame is Fresh (D15). -/
def execNewFrameStruct (seq : Byte) (pay : Payload) (s : State) : StepOutcome :=
  if structOperand s.params pay then s.finishSlot (.held (freshFrame s.params seq pay))
  else s.fail (.refuse .illegal)

/-- NEW_FRAME_RAW (R141): the bytes go through the dispatcher (D16). -/
def execNewFrameRaw (seq : Byte) (buf : Bytes) (s : State) : StepOutcome :=
  if rawFits buf then
    match parsePayload s.params buf with
    | .error e => s.fail e
    | .ok p => s.finishSlot (.held (freshFrame s.params seq p))
  else s.fail (.refuse .tooLong)

/-- SET_SEQ (R143): Dirty whatever the value (D18). -/
def execSetSeq (seq : Byte) (s : State) : StepOutcome :=
  s.onFrame fun f => s.finishSlot (.held (markDirty { f with seq := seq }))

/-- SET_PAYLOAD_RAW (R144): the derived fields stay as they are, stale. -/
def execSetPayloadRaw (buf : Bytes) (s : State) : StepOutcome :=
  s.onFrame fun f =>
    if rawFits buf then
      match parsePayload s.params buf with
      | .error e => s.fail e
      | .ok p => s.finishSlot (.held (markDirty { f with payload := p }))
    else s.fail (.refuse .tooLong)

/-- SET_PAYLOAD_STRUCT (R145). -/
def execSetPayloadStruct (pay : Payload) (s : State) : StepOutcome :=
  if structOperand s.params pay then
    s.onFrame fun f => s.finishSlot (.held (markDirty { f with payload := pay }))
  else s.fail (.refuse .illegal)

/-- GET_SEQ (R146). -/
def execGetSeq (s : State) : StepOutcome := s.onFrame fun f => s.finishValue (.u8 f.seq)

/-- GET_DATA_LENGTH (R147): the stored value, stale or not (D19). -/
def execGetDataLength (s : State) : StepOutcome := s.onFrame fun f => s.finishValue (.u16 f.dl)

/-- GET_HEADER_CHECKSUM (R148): the stored value. -/
def execGetHeaderChecksum (s : State) : StepOutcome := s.onFrame fun f => s.finishValue (.u8 f.hc)

/-- GET_FRAME_TAIL (R149): the stored value, as a number. -/
def execGetFrameTail (s : State) : StepOutcome := s.onFrame fun f => s.finishValue (.u16 f.tail)

/-- GET_CMD_ID (R150). -/
def execGetCmdId (s : State) : StepOutcome := s.onFrame fun f => s.finishValue (.u16 (cmdId f.payload))

/-- GET_PAYLOAD_RAW (R151): the payload as it stands on the wire. -/
def execGetPayloadRaw (s : State) : StepOutcome := s.onFrame fun f => s.finishBytes (encPayload s.params f.payload)

/-- GET_PAYLOAD_STRUCT (R152). -/
def execGetPayloadStruct (s : State) : StepOutcome := s.onFrame fun f => s.finishValue (.payload f.payload)

/-- DROP_FRAME (R153): legal in every state. -/
def execDropFrame (s : State) : StepOutcome := s.finishSlot .empty

end Sys2Proof.Machine
end

