-- ==== Sys2Proof/Machine/Dispatch.lean ====
section
/-! DEFINITION. One arm per operation: the meaning of every row of the table (R58). -/

namespace Sys2Proof.Machine

def exec (i : Instr) (s : State) : Host.Outcome State Fault Refusal :=
  match i with
  | .checksum8 buf => Sys2Proof.Machine.execChecksum8 buf s
  | .checksum16 buf => Sys2Proof.Machine.execChecksum16 buf s
  | .parseHeader buf => Sys2Proof.Machine.execParseHeader buf s
  | .serializeHeader dl seq => Sys2Proof.Machine.execSerializeHeader dl seq s
  | .parsePayload buf => Sys2Proof.Machine.execParsePayload buf s
  | .serializePayload pay => Sys2Proof.Machine.execSerializePayload pay s
  | .parseFrame buf => Sys2Proof.Machine.execParseFrame buf s
  | .recompute => Sys2Proof.Machine.execRecompute s
  | .serializeFrame => Sys2Proof.Machine.execSerializeFrame s
  | .newFrameStruct seq pay => Sys2Proof.Machine.execNewFrameStruct seq pay s
  | .newFrameRaw seq buf => Sys2Proof.Machine.execNewFrameRaw seq buf s
  | .setSeq seq => Sys2Proof.Machine.execSetSeq seq s
  | .setPayloadRaw buf => Sys2Proof.Machine.execSetPayloadRaw buf s
  | .setPayloadStruct pay => Sys2Proof.Machine.execSetPayloadStruct pay s
  | .getSeq => Sys2Proof.Machine.execGetSeq s
  | .getDataLength => Sys2Proof.Machine.execGetDataLength s
  | .getHeaderChecksum => Sys2Proof.Machine.execGetHeaderChecksum s
  | .getFrameTail => Sys2Proof.Machine.execGetFrameTail s
  | .getCmdId => Sys2Proof.Machine.execGetCmdId s
  | .getPayloadRaw => Sys2Proof.Machine.execGetPayloadRaw s
  | .getPayloadStruct => Sys2Proof.Machine.execGetPayloadStruct s
  | .dropFrame => Sys2Proof.Machine.execDropFrame s

end Sys2Proof.Machine
end

