-- ==== Sys2Proof/Machine/Step.lean ====
section
/-! DEFINITION. One step: the codec performs the operation the host issues next, whole, and the host receives its results
(R9, R20, R40). With no operation to perform it is idle (R190). -/

namespace Sys2Proof.Machine

/-- One step. An operation's record is decoded and performed; a record whose `OP` is no operation ends with `ILLEGAL`
(R60). Either way the host then goes on to its next operation. -/
def step (s : State) : Host.Outcome State Fault Refusal :=
  match s.pending with
  | none => s.idle
  | some r =>
    match decode r with
    | .ok i => retire (exec i s)
    | .error e => retire (s.rejectRequest e)

/-- The host issues the operation of a table word next (the host's fixed name; log entry 4). -/
def State.withFetchWord (s : State) (nbits w : Nat) : State :=
  { s with requests := tableRequest (w % 2 ^ nbits) :: s.requests }

end Sys2Proof.Machine
end

