-- ==== Sys2Proof/Machine/Instances.lean ====
section
/-! DEFINITION. Several instances (R25, R41, R188): a list of states, an operation performed on one of them. -/

namespace Sys2Proof.Machine

/-- The state an operation leaves; every operation ends in one (R182). -/
def stateAfter (s : State) : StepOutcome → State
  | .next t => t
  | .fault _ => s
  | .refused _ => s

/-- An operation on instance `k`: it reads and writes no other instance (R25). -/
def performAt (k : Nat) (i : Instr) (ss : List State) : List State :=
  ss.modify k fun s => stateAfter s (exec i s)

end Sys2Proof.Machine
end

