-- ==== Sys2Proof/Machine/Pseudo.lean ====
section
/-! DEFINITION. The pseudo-operations of the host contract (R62, R142): names for sequences of operations. -/

namespace Sys2Proof.Machine

/-- The five pseudo-operations (R62). -/
inductive PseudoOp
  | newFrameBytes (buf : Bytes)
  | newHeaderBytes (buf : Bytes)
  | headerBytes (dl : U16) (seq : Byte) (hc : Byte)
  | frameBytes
  | checkHeader (buf : Bytes)
deriving DecidableEq, Repr

/-- The expansion of a pseudo-operation (R62). -/
def expandPseudo : PseudoOp → List Instr
  | .newFrameBytes buf => [.parseFrame buf, .recompute]
  | .newHeaderBytes buf => [.parseHeader buf]
  | .headerBytes dl seq _ => [.serializeHeader dl seq]
  | .frameBytes => [.serializeFrame]
  | .checkHeader buf => [.parseHeader buf]

/-- The newest result is a success. -/
def lastOk (s : State) : Bool :=
  match s.results with
  | r :: _ => r.st == .ok
  | [] => false

/-- The operations in order; "if a step fails the sequence stops there with that step's result" (R62). -/
def runSequence : List Instr → State → StepOutcome
  | [], s => .next s
  | i :: is, s =>
    match exec i s with
    | .next t => if lastOk t then runSequence is t else .next t
    | .fault r => .fault r
    | .refused r => .refused r

/-- "Result discarded, status kept" (R62, CHECK_HEADER). -/
def discardResult : StepOutcome → StepOutcome
  | .next t =>
    match t.results with
    | r :: rs => .next { t with results := { r with rBuf := .none, rVal := .none } :: rs }
    | [] => .next t
  | .fault r => .fault r
  | .refused r => .refused r

/-- What a pseudo-operation does. -/
def execPseudo (p : PseudoOp) (s : State) : StepOutcome :=
  match p with
  | .newFrameBytes buf => runSequence (expandPseudo (.newFrameBytes buf)) s
  | .newHeaderBytes buf => runSequence (expandPseudo (.newHeaderBytes buf)) s
  | .headerBytes dl seq hc => runSequence (expandPseudo (.headerBytes dl seq hc)) s
  | .frameBytes => runSequence (expandPseudo .frameBytes) s
  | .checkHeader buf => discardResult (runSequence (expandPseudo (.checkHeader buf)) s)

end Sys2Proof.Machine
end

