-- ==== Sys2Proof/Safety.lean ====
section
/-! DEFINITION. What counts as a sound state and a safe run, in the terms the statements use: the invariants of R24, the
equality of frames (R66), the named checksum properties (R83), and runs that never stop (R182). -/

namespace Sys2Proof.Machine

/-- The invariants of a frame held (R24), with the typing of its payload that R100 builds into the word `Payload`. -/
structure FrameInv (P : Params) (f : Frame) : Prop where
  /-- The payload is a `Payload` (R100). -/
  typed : payloadTyped P f.payload = true
  /-- `INV_LEN` -/
  len : 2 ≤ (encPayload P f.payload).length ∧ (encPayload P f.payload).length ≤ pmax
  /-- `INV_RAW` -/
  raw : ∀ id data, f.payload = .raw id data → lookup P id = none
  /-- `INV_FRESH` -/
  fresh : f.dirty = false →
    f.dl.toNat = (encPayload P f.payload).length ∧
    f.hc = c8 P ([P.sof] ++ le16 f.dl ++ [f.seq]) ∧
    f.tail = c16 P ([P.sof] ++ le16 f.dl ++ [f.seq] ++ [f.hc] ++ encPayload P f.payload)

/-- The invariant of a state (R24): it says something only where `FV = 1`. -/
def State.Inv (s : State) : Prop := ∀ f, s.slot = .held f → FrameInv s.params f

/-- Two frame values are "equal in all fields" (R66): `dirty` is not a field of the frame value. -/
def sameFrame (f g : Frame) : Prop :=
  f.dl = g.dl ∧ f.seq = g.seq ∧ f.hc = g.hc ∧ f.tail = g.tail ∧ f.payload = g.payload

/-- `b` with the bit `k mod 8` of the byte at offset `k / 8` flipped. -/
def flipBit (b : Bytes) (k : Nat) : Bytes := b.modify (k / 8) (· ^^^ BitVec.ofNat 8 (2 ^ (k % 8)))

/-- `C8_DETECTS_1BIT` (R83): a named premise, assumed of no parameter. -/
def C8Detects1Bit (P : Params) : Prop :=
  ∀ x : Bytes, x.length = 4 → ∀ k, k < 8 * x.length → c8 P x ≠ c8 P (flipBit x k)

/-- `C16_DETECTS_1BIT` (R83). -/
def C16Detects1Bit (P : Params) : Prop :=
  ∀ x : Bytes, 5 ≤ x.length → x.length ≤ 65540 → ∀ k, k < 8 * x.length → c16 P x ≠ c16 P (flipBit x k)

/-- Two instances agree on `SOF`, `c8` and `c16` (R209); their registries may differ. -/
def sameWire (P Q : Params) : Prop :=
  P.sof = Q.sof ∧ (∀ b, c8 P b = c8 Q b) ∧ ∀ b, c16 P b = c16 Q b

/-- The number whose low byte is `lo` and whose high byte is `hi`: `lo + 256 * hi` (R33, R55), said in numbers and not in
the model's own bit operations. -/
def assemble16 (lo hi : Byte) : U16 := BitVec.ofNat 16 (lo.toNat + 256 * hi.toNat)

/-- The low and the high byte of a 16-bit value, `v mod 256` and `v / 256` (R33). -/
def lowByte (v : U16) : Byte := BitVec.ofNat 8 (v.toNat % 256)

/-- See `lowByte`. -/
def highByte (v : U16) : Byte := BitVec.ofNat 8 (v.toNat / 256)

/-- The error kinds, their stages and the operations that can return each (the table of R170). -/
def mayRaise (i : Instr) (k : ErrKind) (g : Stage) : Bool :=
  match i with
  | .parseHeader _ =>
    (k, g) ∈ [(ErrKind.tooShort, Stage.hdr), (.badStartMarker, .hdr), (.crc8Mismatch, .hdr)]
  | .parsePayload _ => (k, g) ∈ [(ErrKind.tooShort, Stage.pay), (.schemaLengthMismatch, .pay)]
  | .parseFrame _ =>
    (k, g) ∈ [(ErrKind.tooShort, Stage.hdr), (.badStartMarker, .hdr), (.crc8Mismatch, .hdr), (.tooShort, .frm),
      (.trailingBytes, .frm), (.crc16Mismatch, .frm), (.tooShort, .pay), (.schemaLengthMismatch, .pay)]
  | .newFrameRaw _ _ => (k, g) ∈ [(ErrKind.tooShort, Stage.pay), (.schemaLengthMismatch, .pay)]
  | .setPayloadRaw _ => (k, g) ∈ [(ErrKind.tooShort, Stage.pay), (.schemaLengthMismatch, .pay)]
  | _ => false

/-- The refusals and the operations each answers (the table of R178). -/
def mayRefuse (i : Instr) (x : RefuseKind) : Bool :=
  match i with
  | .serializePayload _ => x ∈ [RefuseKind.illegal]
  | .newFrameStruct _ _ => x ∈ [RefuseKind.illegal]
  | .newFrameRaw _ _ => x ∈ [RefuseKind.tooLong]
  | .setPayloadRaw _ => x ∈ [RefuseKind.noFrame, .tooLong]
  | .setPayloadStruct _ => x ∈ [RefuseKind.noFrame, .illegal]
  | .recompute | .serializeFrame | .setSeq _ | .getSeq | .getDataLength | .getHeaderChecksum | .getFrameTail
  | .getCmdId | .getPayloadRaw | .getPayloadStruct => x ∈ [RefuseKind.noFrame]
  | _ => false

/-- A safe run (R182, R212): however many steps are taken, the machine has a next state. Idle steps count (R190, log
entry 6). -/
def neverStops (s : State) : Prop :=
  ∀ n, ∃ t, Host.Core.run Sys2Proof.core n s = Host.Outcome.next t

end Sys2Proof.Machine
end

