-- ==== Sys2Proof/WellFormed.lean ====
section
/-! DEFINITION. Which operations are well formed under the parameters of an instance: those whose operands no rule turns
away at the interface with `ILLEGAL` or `TOO_LONG` (R178). Three checks: the payload operand is a `Payload`; it is a
`Struct` where one is required; raw command bytes fit. An operation that is not well formed still runs: it ends with that
refusal. -/

namespace Sys2Proof

/-- The operands of the operation pass the checks of R104, R140, R141, R144, R145. -/
def wellFormed (P : Params) : Instr → Bool
  | .checksum8 _ => true
  | .checksum16 _ => true
  | .parseHeader _ => true
  | .serializeHeader _ _ => true
  | .parsePayload _ => true
  | .serializePayload pay => Machine.payloadTyped P pay
  | .parseFrame _ => true
  | .recompute => true
  | .serializeFrame => true
  | .newFrameStruct _ pay => Machine.structOperand P pay
  | .newFrameRaw _ buf => Machine.rawFits buf
  | .setSeq _ => true
  | .setPayloadRaw buf => Machine.rawFits buf
  | .setPayloadStruct pay => Machine.structOperand P pay
  | .getSeq => true
  | .getDataLength => true
  | .getHeaderChecksum => true
  | .getFrameTail => true
  | .getCmdId => true
  | .getPayloadRaw => true
  | .getPayloadStruct => true
  | .dropFrame => true

end Sys2Proof
end

