-- ==== Sys2Proof/Certificates/Slice0/Obligations.lean ====
section
/-! DEFINITION. The statements for the provers. Each is about every state and every choice of the parameters `SOF`, `c8`,
`c16`, `REG`, since a state carries its parameters. A next state is written out: what a record update does not name is
unchanged (the frame). -/

open Sys2Proof Sys2Proof.Machine

/-! ### Checksum engines -/

/-- R80: CHECKSUM8 is `OP = 0x01` with the operand `A_BUF`; it gives `c8` of the bytes, in every state, never fails and writes
nothing; equal operands give equal results on any instance with the same algorithm. -/
def Obligations.Checksum8Result : Prop :=
  (∀ r : Request, r.op = 0x01 → decode r = .ok (.checksum8 r.aBuf)) ∧
  (∀ (buf : Bytes) (s : State), exec (.checksum8 buf) s =
    .next { s with results := okResponse none (some (.u8 (c8 s.params buf))) :: s.results }) ∧
  ∀ (buf : Bytes) (s u : State), s.params.alg8 = u.params.alg8 → c8 s.params buf = c8 u.params buf

/-- R81: CHECKSUM16 is `OP = 0x02`; otherwise as `Checksum8Result`. -/
def Obligations.Checksum16Result : Prop :=
  (∀ r : Request, r.op = 0x02 → decode r = .ok (.checksum16 r.aBuf)) ∧
  (∀ (buf : Bytes) (s : State), exec (.checksum16 buf) s =
    .next { s with results := okResponse none (some (.u16 (c16 s.params buf))) :: s.results }) ∧
  ∀ (buf : Bytes) (s u : State), s.params.alg16 = u.params.alg16 → c16 s.params buf = c16 u.params buf

/-! ### Header codec -/

/-- R90: PARSE_HEADER, all its outcomes: too short; wrong marker; wrong checksum over offsets 0 to 3; the fields. The
stages are the spec's decision D12. -/
def Obligations.ParseHeaderOutcomes : Prop :=
  ∀ s : State,
    (∀ buf : Bytes, buf.length < 5 → exec (.parseHeader buf) s =
      .next { s with results := failResponse (.raise .tooShort .hdr) :: s.results }) ∧
    ∀ (b0 b1 b2 b3 b4 : Byte) (rest : Bytes),
      (b0 ≠ s.params.sof → exec (.parseHeader (b0 :: b1 :: b2 :: b3 :: b4 :: rest)) s =
        .next { s with results := failResponse (.raise .badStartMarker .hdr) :: s.results }) ∧
      (b0 = s.params.sof → c8 s.params [b0, b1, b2, b3] ≠ b4 →
        exec (.parseHeader (b0 :: b1 :: b2 :: b3 :: b4 :: rest)) s =
        .next { s with results := failResponse (.raise .crc8Mismatch .hdr) :: s.results }) ∧
      (b0 = s.params.sof → c8 s.params [b0, b1, b2, b3] = b4 →
        exec (.parseHeader (b0 :: b1 :: b2 :: b3 :: b4 :: rest)) s =
        .next { s with
          results := okResponse none (some (.header { dl := assemble16 b1 b2, seq := b3, hc := b4 })) :: s.results })

/-- R91: SERIALIZE_HEADER is `OP = 0x11` with the operands `A_DL` and `A_SEQ`; it gives five bytes, the last the checksum of
the four before it; never fails, writes nothing. -/
def Obligations.SerializeHeaderResult : Prop :=
  (∀ r : Request, r.op = 0x11 → decode r = .ok (.serializeHeader r.aDl r.aSeq)) ∧
  ∀ (dl : U16) (seq : Byte) (s : State), exec (.serializeHeader dl seq) s =
    .next { s with
      results := okResponse (some [s.params.sof, lowByte dl, highByte dl, seq,
        c8 s.params [s.params.sof, lowByte dl, highByte dl, seq]]) none :: s.results }

/-- R92: header round trip, both ways. The bytes SERIALIZE_HEADER gives parse, on any instance with the same parameters,
to the same fields; a parsed header serializes to the five bytes that were parsed. -/
def Obligations.HeaderRoundTrip : Prop :=
  (∀ (dl : U16) (seq : Byte) (s t u : State) (b : Bytes),
    exec (.serializeHeader dl seq) s = .next t → t.results.head? = some (okResponse (some b) none) →
    u.params = s.params →
    exec (.parseHeader b) u = .next { u with
      results := okResponse none (some (.header
        { dl := dl, seq := seq, hc := c8 s.params [s.params.sof, lowByte dl, highByte dl, seq] })) :: u.results }) ∧
  ∀ (buf : Bytes) (s t : State) (h : Header),
    exec (.parseHeader buf) s = .next t → t.results.head? = some (okResponse none (some (.header h))) →
    exec (.serializeHeader h.dl h.seq) s =
      .next { s with results := okResponse (some (buf.take 5)) none :: s.results }

/-- R127 for PARSE_HEADER: a 5-byte header that parses, with one bit flipped. The premise `C8_DETECTS_1BIT` (R83) is needed
for offsets 1 to 3 only. -/
def Obligations.HeaderBitFlip : Prop :=
  ∀ (b : Bytes) (s t : State) (h : Header) (k : Nat), b.length = 5 →
    exec (.parseHeader b) s = .next t → t.results.head? = some (okResponse none (some (.header h))) →
    (k < 8 → exec (.parseHeader (flipBit b k)) s =
      .next { s with results := failResponse (.raise .badStartMarker .hdr) :: s.results }) ∧
    (8 ≤ k → k < 32 → C8Detects1Bit s.params → exec (.parseHeader (flipBit b k)) s =
      .next { s with results := failResponse (.raise .crc8Mismatch .hdr) :: s.results }) ∧
    (32 ≤ k → k < 40 → exec (.parseHeader (flipBit b k)) s =
      .next { s with results := failResponse (.raise .crc8Mismatch .hdr) :: s.results })

/-! ### Payload dispatcher -/

/-- R100: a `Struct` is a payload only for a registered id and a value of its schema; the serialized form; its length and
its first two bytes. -/
def Obligations.PayloadSerializedForm : Prop :=
  ∀ P : Params,
    (∀ id v, payloadTyped P (.struct id v) = true ↔ ∃ S, lookup P id = some S ∧ S.isVal v = true) ∧
    (∀ id data, payloadTyped P (.raw id data) = true) ∧
    (∀ id v S, lookup P id = some S → S.isVal v = true →
      encPayload P (.struct id v) = [lowByte id, highByte id] ++ S.enc v) ∧
    (∀ id data, encPayload P (.raw id data) = [lowByte id, highByte id] ++ data) ∧
    (∀ id v, cmdId (.struct id v) = id) ∧ (∀ id data, cmdId (.raw id data) = id) ∧
    ∀ p, 2 ≤ (encPayload P p).length ∧ (encPayload P p).take 2 = [lowByte (cmdId p), highByte (cmdId p)]

/-- R102, R63: the lookup is an exact match on the 16 bits of the id: the answer for an id depends on the rows of that id
alone; an id without a row is not found; an id with one row is found with that row's schema. That a row can describe no
schema, and which row counts where an id has several, is the model's choice (log entry 9). -/
def Obligations.LookupExactMatch : Prop :=
  (∀ (P Q : Params) (id : U16),
    P.registry.filter (fun r => r.id = id) = Q.registry.filter (fun r => r.id = id) → lookup P id = lookup Q id) ∧
  (∀ (P : Params) (id : U16), (∀ r ∈ P.registry, r.id ≠ id) → lookup P id = none) ∧
  ∀ (P : Params) (r : RegistryRow), r ∈ P.registry → (∀ q ∈ P.registry, q.id = r.id → q = r) →
    lookup P r.id = schemaOf r.schema

/-- R105: a row of the fixed-layout class is a schema: its width is the sum of the field widths, a value is one number in
range per field, fields are written in order, least significant byte first, without padding. -/
def Obligations.FixedLayoutSchema : Prop :=
  (∀ (fs : List LayoutField), (∀ f ∈ fs, 1 ≤ f.width) → (fs.map LayoutField.width).sum ≤ 65533 →
    ∃ S, schemaOf (.layout fs) = some S ∧ S.width = (fs.map LayoutField.width).sum ∧
      (∀ v : Value, S.isVal v = true ↔
        v.length = fs.length ∧ ∀ q ∈ fs.zip v, q.2 < 2 ^ (8 * q.1.width)) ∧
      ∀ v : Value, S.isVal v = true →
        S.enc v = (fs.zip v).flatMap fun q =>
          (List.range q.1.width).map fun j => BitVec.ofNat 8 (q.2 / 256 ^ j)) ∧
  (∀ fs : List LayoutField, (∃ f ∈ fs, f.width = 0) → schemaOf (.layout fs) = none) ∧
  ∀ fs : List LayoutField, 65533 < (fs.map LayoutField.width).sum → schemaOf (.layout fs) = none

/-- R103: PARSE_PAYLOAD, all its outcomes. The stage is the spec's decision D12. -/
def Obligations.ParsePayloadOutcomes : Prop :=
  ∀ s : State,
    (∀ buf : Bytes, buf.length < 2 → exec (.parsePayload buf) s =
      .next { s with results := failResponse (.raise .tooShort .pay) :: s.results }) ∧
    ∀ (lo hi : Byte) (rest : Bytes),
      (∀ S, lookup s.params (assemble16 lo hi) = some S → rest.length ≠ S.width →
        exec (.parsePayload (lo :: hi :: rest)) s =
        .next { s with results := failResponse (.raise .schemaLengthMismatch .pay) :: s.results }) ∧
      (∀ S, lookup s.params (assemble16 lo hi) = some S → rest.length = S.width →
        exec (.parsePayload (lo :: hi :: rest)) s =
        .next { s with
          results := okResponse none (some (.payload (.struct (assemble16 lo hi) (S.dec rest)))) :: s.results }) ∧
      (lookup s.params (assemble16 lo hi) = none →
        exec (.parsePayload (lo :: hi :: rest)) s =
        .next { s with
          results := okResponse none (some (.payload (.raw (assemble16 lo hi) rest))) :: s.results })

/-- R104: SERIALIZE_PAYLOAD gives the serialized form of every `Payload`; a `Raw` unchanged, whatever its id (D32); an
operand that is no `Payload` ends with `ILLEGAL` (D10). -/
def Obligations.SerializePayloadOutcomes : Prop :=
  ∀ s : State,
    (∀ id v S, lookup s.params id = some S → S.isVal v = true → exec (.serializePayload (.struct id v)) s =
      .next { s with results := okResponse (some ([lowByte id, highByte id] ++ S.enc v)) none :: s.results }) ∧
    (∀ id data, exec (.serializePayload (.raw id data)) s =
      .next { s with results := okResponse (some ([lowByte id, highByte id] ++ data)) none :: s.results }) ∧
    (∀ p, payloadTyped s.params p = false → exec (.serializePayload p) s =
      .next { s with results := failResponse (.refuse .illegal) :: s.results })

/-- R106: payload round trip, both ways. -/
def Obligations.PayloadRoundTrip : Prop :=
  (∀ (p : Payload) (s : State), payloadTyped s.params p = true →
    (∀ id data, p = .raw id data → lookup s.params id = none) →
    exec (.parsePayload (encPayload s.params p)) s =
      .next { s with results := okResponse none (some (.payload p)) :: s.results }) ∧
  ∀ (buf : Bytes) (s t : State) (p : Payload),
    exec (.parsePayload buf) s = .next t → t.results.head? = some (okResponse none (some (.payload p))) →
    encPayload s.params p = buf

/-- R107: the empty payload boundary. -/
def Obligations.EmptyPayloadBoundary : Prop :=
  ∀ (lo hi : Byte) (s : State),
    (lookup s.params (assemble16 lo hi) = none → exec (.parsePayload [lo, hi]) s =
      .next { s with results := okResponse none (some (.payload (.raw (assemble16 lo hi) []))) :: s.results }) ∧
    ∀ S, lookup s.params (assemble16 lo hi) = some S →
      (S.width = 0 → exec (.parsePayload [lo, hi]) s =
        .next { s with
          results := okResponse none (some (.payload (.struct (assemble16 lo hi) (S.dec [])))) :: s.results }) ∧
      (0 < S.width → exec (.parsePayload [lo, hi]) s =
        .next { s with results := failResponse (.raise .schemaLengthMismatch .pay) :: s.results })

/-! ### Frame assembler -/

/-- R120, R171 to R176, R179: PARSE_FRAME, every way it fails, in the order of its checks. The order of the last three and
the stages are the spec's decisions D13 and D12. -/
def Obligations.ParseFrameErrors : Prop :=
  ∀ s : State,
    (∀ buf : Bytes, buf.length < 5 → exec (.parseFrame buf) s =
      .next { s with results := failResponse (.raise .tooShort .hdr) :: s.results }) ∧
    ∀ (b0 b1 b2 b3 b4 : Byte) (rest : Bytes),
      (b0 ≠ s.params.sof → exec (.parseFrame (b0 :: b1 :: b2 :: b3 :: b4 :: rest)) s =
        .next { s with results := failResponse (.raise .badStartMarker .hdr) :: s.results }) ∧
      (b0 = s.params.sof → c8 s.params [b0, b1, b2, b3] ≠ b4 →
        exec (.parseFrame (b0 :: b1 :: b2 :: b3 :: b4 :: rest)) s =
        .next { s with results := failResponse (.raise .crc8Mismatch .hdr) :: s.results }) ∧
      (b0 = s.params.sof → c8 s.params [b0, b1, b2, b3] = b4 →
        rest.length < (b1.toNat + 256 * b2.toNat) + 2 →
        exec (.parseFrame (b0 :: b1 :: b2 :: b3 :: b4 :: rest)) s =
        .next { s with results := failResponse (.raise .tooShort .frm) :: s.results }) ∧
      (b0 = s.params.sof → c8 s.params [b0, b1, b2, b3] = b4 →
        (b1.toNat + 256 * b2.toNat) + 2 < rest.length →
        exec (.parseFrame (b0 :: b1 :: b2 :: b3 :: b4 :: rest)) s =
        .next { s with results := failResponse (.raise .trailingBytes .frm) :: s.results }) ∧
      ∀ (pay : Bytes) (t0 t1 : Byte), b0 = s.params.sof → c8 s.params [b0, b1, b2, b3] = b4 →
        rest = pay ++ [t0, t1] → pay.length = b1.toNat + 256 * b2.toNat →
        (c16 s.params ([b0, b1, b2, b3, b4] ++ pay) ≠ assemble16 t0 t1 →
          exec (.parseFrame (b0 :: b1 :: b2 :: b3 :: b4 :: rest)) s =
          .next { s with results := failResponse (.raise .crc16Mismatch .frm) :: s.results }) ∧
        (c16 s.params ([b0, b1, b2, b3, b4] ++ pay) = assemble16 t0 t1 → pay.length < 2 →
          exec (.parseFrame (b0 :: b1 :: b2 :: b3 :: b4 :: rest)) s =
          .next { s with results := failResponse (.raise .tooShort .pay) :: s.results }) ∧
        (∀ (lo hi : Byte) (fields : Bytes) (S : Schema),
          c16 s.params ([b0, b1, b2, b3, b4] ++ pay) = assemble16 t0 t1 → pay = lo :: hi :: fields →
          lookup s.params (assemble16 lo hi) = some S → fields.length ≠ S.width →
          exec (.parseFrame (b0 :: b1 :: b2 :: b3 :: b4 :: rest)) s =
          .next { s with results := failResponse (.raise .schemaLengthMismatch .pay) :: s.results })

/-- R120: PARSE_FRAME of a buffer that is one sound frame loads the slot with the fields read, Fresh, whatever the slot held
(D30). -/
def Obligations.ParseFrameLoads : Prop :=
  ∀ (s : State) (b1 b2 b3 b4 lo hi t0 t1 : Byte) (fields : Bytes),
    c8 s.params [s.params.sof, b1, b2, b3] = b4 →
    (lo :: hi :: fields).length = b1.toNat + 256 * b2.toNat →
    c16 s.params ([s.params.sof, b1, b2, b3, b4] ++ (lo :: hi :: fields)) = assemble16 t0 t1 →
    (∀ S, lookup s.params (assemble16 lo hi) = some S → fields.length = S.width →
      exec (.parseFrame ([s.params.sof, b1, b2, b3, b4] ++ (lo :: hi :: fields) ++ [t0, t1])) s =
      .next { s with
        slot := .held { dl := assemble16 b1 b2, seq := b3, hc := b4, tail := assemble16 t0 t1,
                        payload := .struct (assemble16 lo hi) (S.dec fields), dirty := false }
        results := okResponse none none :: s.results }) ∧
    (lookup s.params (assemble16 lo hi) = none →
      exec (.parseFrame ([s.params.sof, b1, b2, b3, b4] ++ (lo :: hi :: fields) ++ [t0, t1])) s =
      .next { s with
        slot := .held { dl := assemble16 b1 b2, seq := b3, hc := b4, tail := assemble16 t0 t1,
                        payload := .raw (assemble16 lo hi) fields, dirty := false }
        results := okResponse none none :: s.results })

/-- R121: RECOMPUTE on a frame held derives the length from the payload, the header checksum from the new length, the frame
checksum from the new header; `F.seq` and `F.payload` stay; Fresh. (On an empty slot: `NoFrameRefusals`.) -/
def Obligations.RecomputeResult : Prop :=
  ∀ (s : State) (f : Frame) (pb h4 : Bytes) (dl : U16), s.slot = .held f →
    pb = encPayload s.params f.payload → dl = BitVec.ofNat 16 pb.length →
    h4 = [s.params.sof, lowByte dl, highByte dl, f.seq] →
    exec .recompute s = .next { s with
      slot := .held { dl := dl, seq := f.seq, hc := c8 s.params h4, tail := c16 s.params (h4 ++ [c8 s.params h4] ++ pb),
                      payload := f.payload, dirty := false }
      results := okResponse none none :: s.results }

/-- R122: SERIALIZE_FRAME recomputes, then emits header, payload and tail, low byte first. -/
def Obligations.SerializeFrameResult : Prop :=
  ∀ (s : State) (f : Frame) (pb h5 : Bytes) (dl : U16) (hc : Byte) (tail : U16), s.slot = .held f →
    pb = encPayload s.params f.payload → dl = BitVec.ofNat 16 pb.length →
    hc = c8 s.params [s.params.sof, lowByte dl, highByte dl, f.seq] →
    h5 = [s.params.sof, lowByte dl, highByte dl, f.seq, hc] → tail = c16 s.params (h5 ++ pb) →
    exec .serializeFrame s = .next { s with
      slot := .held { dl := dl, seq := f.seq, hc := hc, tail := tail, payload := f.payload, dirty := false }
      results := okResponse (some (h5 ++ pb ++ [lowByte tail, highByte tail])) none :: s.results }

/-- R8, R54, R121, R122, R126: in a state that meets the invariant, the length RECOMPUTE and SERIALIZE_FRAME store is the
payload's length, untruncated; the frame emitted has `5 + dl + 2` bytes, from 9 to 65542. -/
def Obligations.FrameLengths : Prop :=
  ∀ (s : State) (f : Frame), s.Inv → s.slot = .held f →
    (∃ r g, exec .recompute s = .next r ∧ r.slot = .held g ∧
      g.dl.toNat = (encPayload s.params f.payload).length) ∧
    ∃ t g b, exec .serializeFrame s = .next t ∧ t.slot = .held g ∧
      t.results.head? = some (okResponse (some b) none) ∧
      g.dl.toNat = (encPayload s.params f.payload).length ∧ b.length = 5 + g.dl.toNat + 2 ∧
      9 ≤ b.length ∧ b.length ≤ 65542

/-- R124: frame round trip, both ways, on any instance with the same parameters. -/
def Obligations.FrameRoundTrip : Prop :=
  (∀ (s : State) (f : Frame), s.Inv → s.slot = .held f →
    ∃ t g b, exec .serializeFrame s = .next t ∧ t.slot = .held g ∧
      t.results.head? = some (okResponse (some b) none) ∧
      ∀ u : State, u.params = s.params → ∃ g', sameFrame g' g ∧
        exec (.parseFrame b) u =
          .next { u with slot := .held g', results := okResponse none none :: u.results }) ∧
  ∀ (buf : Bytes) (s t : State), exec (.parseFrame buf) s = .next t →
    t.results.head? = some (okResponse none none) →
    ∃ u, exec .serializeFrame t = .next u ∧ u.results.head? = some (okResponse (some buf) none)

/-- R125: a second RECOMPUTE, and a RECOMPUTE after PARSE_FRAME, NEW_FRAME_STRUCT, NEW_FRAME_RAW or SERIALIZE_FRAME, with
nothing between them that changes the slot, leaves every field as it is. RECOMPUTE writes neither the payload nor `seq` nor
the parameters, and its fields are a function of these. -/
def Obligations.RecomputeIdempotent : Prop :=
  (∀ (i : Instr) (s t u : State), exec i s = .next t → lastOk t = true →
    (match i with
      | .recompute | .parseFrame _ | .newFrameStruct _ _ | .newFrameRaw _ _ | .serializeFrame => True
      | _ => False) →
    u.slot = t.slot → u.params = t.params →
    exec .recompute u = .next { u with results := okResponse none none :: u.results }) ∧
  ∀ (s u t v : State) (f g : Frame), s.slot = .held f → u.slot = .held g → s.params = u.params → f.payload = g.payload →
    f.seq = g.seq → exec .recompute s = .next t → exec .recompute u = .next v →
    t.slot = v.slot ∧ t.params = s.params ∧ ∃ h, t.slot = .held h ∧ h.payload = f.payload ∧ h.seq = f.seq

/-- R127: a frame PARSE_FRAME accepts, with one bit flipped, and which error it then reports: by the offset of the bit. The
named premises of R83 are needed for offsets 1 to 3 and for the payload only. The order of checks is the spec's decision
D13. -/
def Obligations.FrameBitFlip : Prop :=
  ∀ (b : Bytes) (s t : State) (k : Nat), exec (.parseFrame b) s = .next t →
    t.results.head? = some (okResponse none none) →
    (k < 8 → exec (.parseFrame (flipBit b k)) s =
      .next { s with results := failResponse (.raise .badStartMarker .hdr) :: s.results }) ∧
    (8 ≤ k → k < 32 → C8Detects1Bit s.params → exec (.parseFrame (flipBit b k)) s =
      .next { s with results := failResponse (.raise .crc8Mismatch .hdr) :: s.results }) ∧
    (32 ≤ k → k < 40 → exec (.parseFrame (flipBit b k)) s =
      .next { s with results := failResponse (.raise .crc8Mismatch .hdr) :: s.results }) ∧
    (40 ≤ k → k < 8 * (b.length - 2) → C16Detects1Bit s.params → exec (.parseFrame (flipBit b k)) s =
      .next { s with results := failResponse (.raise .crc16Mismatch .frm) :: s.results }) ∧
    (8 * (b.length - 2) ≤ k → k < 8 * b.length → exec (.parseFrame (flipBit b k)) s =
      .next { s with results := failResponse (.raise .crc16Mismatch .frm) :: s.results })

/-- R18: every header and every frame the codec emits begins with `SOF`, and only buffers that begin with it parse. -/
def Obligations.StartMarkerFixed : Prop :=
  (∀ (i : Instr) (s t : State) (b : Bytes), exec i s = .next t →
    t.results.head? = some (okResponse (some b) none) →
    (match i with
      | .serializeHeader _ _ | .serializeFrame => True
      | _ => False) → b.head? = some s.params.sof) ∧
  ∀ (buf : Bytes) (s t : State), lastOk t = true →
    (exec (.parseHeader buf) s = .next t ∨ exec (.parseFrame buf) s = .next t) →
    buf.head? = some s.params.sof

/-- R66: Fresh frames of sound states are equal in all fields exactly when their serializations are equal (what the fields
are is the spec's decision D27). -/
def Obligations.FreshFramesEqualIffSameBytes : Prop :=
  ∀ (P : Params) (s u t v : State) (f g : Frame) (b c : Bytes), s.params = P → u.params = P → s.Inv → u.Inv →
    s.slot = .held f → u.slot = .held g → f.dirty = false → g.dirty = false →
    exec .serializeFrame s = .next t → t.results.head? = some (okResponse (some b) none) →
    exec .serializeFrame u = .next v → v.results.head? = some (okResponse (some c) none) →
    (sameFrame f g ↔ b = c)

/-- R205, R122: what SERIALIZE_FRAME emits is derived from the payload and `seq` alone: two frames that agree on these give
the same bytes and the same frame, whatever stale fields and flag they hold. -/
def Obligations.StaleFieldsNeverSerialized : Prop :=
  ∀ (s u t v : State) (f g : Frame), s.slot = .held f → u.slot = .held g → s.params = u.params →
    f.seq = g.seq → f.payload = g.payload →
    exec .serializeFrame s = .next t → exec .serializeFrame u = .next v →
    t.slot = v.slot ∧ t.results.head? = v.results.head?

/-! ### Construction, mutation, access, destruction -/

/-- R140: NEW_FRAME_STRUCT of a well-typed `Struct` loads the slot with that payload and the derived fields, Fresh (D15),
whatever the slot held (D30). (Other operands: `IllegalOperands`.) -/
def Obligations.NewFrameStructLoads : Prop :=
  ∀ (s : State) (seq : Byte) (id : U16) (v : Value) (S : Schema) (pb h4 : Bytes) (dl : U16),
    lookup s.params id = some S → S.isVal v = true →
    pb = [lowByte id, highByte id] ++ S.enc v → dl = BitVec.ofNat 16 pb.length →
    h4 = [s.params.sof, lowByte dl, highByte dl, seq] →
    exec (.newFrameStruct seq (.struct id v)) s = .next { s with
      slot := .held { dl := dl, seq := seq, hc := c8 s.params h4, tail := c16 s.params (h4 ++ [c8 s.params h4] ++ pb),
                      payload := .struct id v, dirty := false }
      results := okResponse none none :: s.results }

/-- R141: NEW_FRAME_RAW, all its outcomes. The bytes are dispatched (D16); the bound on their number is D17. On success the
length stored is that of the bytes and GET_PAYLOAD_RAW gives them back. -/
def Obligations.NewFrameRawOutcomes : Prop :=
  ∀ (s : State) (seq : Byte),
    (∀ buf : Bytes, 65535 < buf.length → exec (.newFrameRaw seq buf) s =
      .next { s with results := failResponse (.refuse .tooLong) :: s.results }) ∧
    (∀ buf : Bytes, buf.length < 2 → exec (.newFrameRaw seq buf) s =
      .next { s with results := failResponse (.raise .tooShort .pay) :: s.results }) ∧
    ∀ (lo hi : Byte) (rest h4 : Bytes) (dl : U16), (lo :: hi :: rest).length ≤ 65535 →
      dl = BitVec.ofNat 16 (lo :: hi :: rest).length → h4 = [s.params.sof, lowByte dl, highByte dl, seq] →
      (∀ S, lookup s.params (assemble16 lo hi) = some S → rest.length ≠ S.width →
        exec (.newFrameRaw seq (lo :: hi :: rest)) s =
        .next { s with results := failResponse (.raise .schemaLengthMismatch .pay) :: s.results }) ∧
      (∀ p, (p = .raw (assemble16 lo hi) rest ∧ lookup s.params (assemble16 lo hi) = none ∨
          ∃ S, lookup s.params (assemble16 lo hi) = some S ∧ rest.length = S.width ∧
            p = .struct (assemble16 lo hi) (S.dec rest)) →
        ∃ t, exec (.newFrameRaw seq (lo :: hi :: rest)) s = .next t ∧
          t = { s with
            slot := .held { dl := dl, seq := seq, hc := c8 s.params h4,
                            tail := c16 s.params (h4 ++ [c8 s.params h4] ++ (lo :: hi :: rest)),
                            payload := p, dirty := false }
            results := okResponse none none :: s.results } ∧
          exec .getPayloadRaw t =
            .next { t with results := okResponse (some (lo :: hi :: rest)) none :: t.results })

/-- R143: SET_SEQ on a frame held writes `F.seq` and sets `F.dirty`, whatever the value (D18). -/
def Obligations.SetSeqResult : Prop :=
  ∀ (s : State) (f : Frame) (v : Byte), s.slot = .held f →
    exec (.setSeq v) s = .next { s with
      slot := .held { f with seq := v, dirty := true }
      results := okResponse none none :: s.results }

/-- R144: SET_PAYLOAD_RAW on a frame held, all its outcomes; the derived fields and `F.seq` stay. The bytes are dispatched
(D16); the bound is D17. -/
def Obligations.SetPayloadRawOutcomes : Prop :=
  ∀ (s : State) (f : Frame), s.slot = .held f →
    (∀ buf : Bytes, 65535 < buf.length → exec (.setPayloadRaw buf) s =
      .next { s with results := failResponse (.refuse .tooLong) :: s.results }) ∧
    (∀ buf : Bytes, buf.length < 2 → exec (.setPayloadRaw buf) s =
      .next { s with results := failResponse (.raise .tooShort .pay) :: s.results }) ∧
    ∀ (lo hi : Byte) (rest : Bytes), (lo :: hi :: rest).length ≤ 65535 →
      (∀ S, lookup s.params (assemble16 lo hi) = some S → rest.length ≠ S.width →
        exec (.setPayloadRaw (lo :: hi :: rest)) s =
        .next { s with results := failResponse (.raise .schemaLengthMismatch .pay) :: s.results }) ∧
      (∀ S, lookup s.params (assemble16 lo hi) = some S → rest.length = S.width →
        exec (.setPayloadRaw (lo :: hi :: rest)) s = .next { s with
          slot := .held { f with payload := .struct (assemble16 lo hi) (S.dec rest), dirty := true }
          results := okResponse none none :: s.results }) ∧
      (lookup s.params (assemble16 lo hi) = none →
        exec (.setPayloadRaw (lo :: hi :: rest)) s = .next { s with
          slot := .held { f with payload := .raw (assemble16 lo hi) rest, dirty := true }
          results := okResponse none none :: s.results })

/-- R145: SET_PAYLOAD_STRUCT of a well-typed `Struct` on a frame held writes `F.payload` and sets `F.dirty`. (Other operands:
`IllegalOperands`.) -/
def Obligations.SetPayloadStructResult : Prop :=
  ∀ (s : State) (f : Frame) (id : U16) (v : Value) (S : Schema), s.slot = .held f →
    lookup s.params id = some S → S.isVal v = true →
    exec (.setPayloadStruct (.struct id v)) s = .next { s with
      slot := .held { f with payload := .struct id v, dirty := true }
      results := okResponse none none :: s.results }

/-- R146 to R152: every GET on a frame held gives the stored field, Fresh or Dirty (D19), and writes nothing. -/
def Obligations.GetterResults : Prop :=
  ∀ (s : State) (f : Frame), s.slot = .held f →
    exec .getSeq s = .next { s with results := okResponse none (some (.u8 f.seq)) :: s.results } ∧
    exec .getDataLength s = .next { s with results := okResponse none (some (.u16 f.dl)) :: s.results } ∧
    exec .getHeaderChecksum s = .next { s with results := okResponse none (some (.u8 f.hc)) :: s.results } ∧
    exec .getFrameTail s = .next { s with results := okResponse none (some (.u16 f.tail)) :: s.results } ∧
    exec .getCmdId s = .next { s with results := okResponse none (some (.u16 (cmdId f.payload))) :: s.results } ∧
    exec .getPayloadRaw s =
      .next { s with results := okResponse (some (encPayload s.params f.payload)) none :: s.results } ∧
    exec .getPayloadStruct s = .next { s with results := okResponse none (some (.payload f.payload)) :: s.results }

/-- R150: the command id GET_CMD_ID gives is the little-endian value of the first two bytes GET_PAYLOAD_RAW gives. -/
def Obligations.CmdIdIsFirstTwoBytes : Prop :=
  ∀ (s t u : State) (id : U16) (b : Bytes), exec .getCmdId s = .next t → exec .getPayloadRaw s = .next u →
    t.results.head? = some (okResponse none (some (.u16 id))) → u.results.head? = some (okResponse (some b) none) →
    ∃ lo hi rest, b = lo :: hi :: rest ∧ id = assemble16 lo hi

/-- R153, R200: DROP_FRAME empties the slot in every state; the slot is then as after reset (D28, D8). -/
def Obligations.DropFrameResult : Prop :=
  ∀ s : State, exec .dropFrame s =
    .next { s with slot := State.reset.slot, results := okResponse none none :: s.results } ∧
    State.reset.slot = .empty

/-- R178: with `FV = 0` every operation on the frame ends with `NO_FRAME` (D9). An ill-typed operand of SET_PAYLOAD_STRUCT
comes first (R179). -/
def Obligations.NoFrameRefusals : Prop :=
  ∀ (s : State) (i : Instr), s.slot = .empty →
    (match i with
      | .recompute | .serializeFrame | .setSeq _ | .setPayloadRaw _ | .getSeq | .getDataLength | .getHeaderChecksum
      | .getFrameTail | .getCmdId | .getPayloadRaw | .getPayloadStruct => True
      | .setPayloadStruct p => structOperand s.params p = true
      | _ => False) →
    exec i s = .next { s with results := failResponse (.refuse .noFrame) :: s.results }

/-- R178, R179: an `A_PAY` operand that is no well-typed `Payload`, or is a `Raw` where a `Struct` is required, ends with
`ILLEGAL` in every state, before any other check (D10). -/
def Obligations.IllegalOperands : Prop :=
  ∀ (s : State) (seq : Byte),
    (∀ id v, (∀ S, lookup s.params id = some S → S.isVal v = false) →
      exec (.serializePayload (.struct id v)) s =
        .next { s with results := failResponse (.refuse .illegal) :: s.results } ∧
      exec (.newFrameStruct seq (.struct id v)) s =
        .next { s with results := failResponse (.refuse .illegal) :: s.results } ∧
      exec (.setPayloadStruct (.struct id v)) s =
        .next { s with results := failResponse (.refuse .illegal) :: s.results }) ∧
    (∀ id data,
      exec (.newFrameStruct seq (.raw id data)) s =
        .next { s with results := failResponse (.refuse .illegal) :: s.results } ∧
      exec (.setPayloadStruct (.raw id data)) s =
        .next { s with results := failResponse (.refuse .illegal) :: s.results })

/-- R208: `seq` is the host's. A frame made by NEW_FRAME_* carries the `seq` the host gave; a frame is accepted whatever its
`seq`; no operation leaves a `seq` in the slot but the one held, the one the host gave, or the one of the buffer parsed. -/
def Obligations.SequenceNumberIsTheHosts : Prop :=
  (∀ (seq : Byte) (i : Instr) (s t : State), exec i s = .next t → lastOk t = true →
    ((∃ p, i = .newFrameStruct seq p) ∨ ∃ b, i = .newFrameRaw seq b) →
    ∃ f, t.slot = .held f ∧ f.seq = seq) ∧
  (∀ (s : State) (f : Frame) (v : Byte), s.Inv → s.slot = .held f →
    ∃ t u b, exec (.setSeq v) s = .next t ∧ exec .serializeFrame t = .next u ∧
      u.results.head? = some (okResponse (some b) none) ∧
      ∃ w g, exec (.parseFrame b) s = .next w ∧ lastOk w = true ∧ w.slot = .held g ∧ g.seq = v) ∧
  ∀ (i : Instr) (s t : State) (g : Frame), exec i s = .next t → t.slot = .held g →
    (∃ f, s.slot = .held f ∧ g.seq = f.seq) ∨ i = .setSeq g.seq ∨ (∃ p, i = .newFrameStruct g.seq p) ∨
    (∃ b, i = .newFrameRaw g.seq b) ∨ ∃ b, i = .parseFrame b ∧ b[3]? = some g.seq

/-! ### Errors, refusals, the whole machine -/

/-- R170, R177, R178: the numbers of the statuses and stages (D11, D12). -/
def Obligations.StatusNumbers : Prop :=
  statusCode .ok = 0x00 ∧ statusCode (.error .tooShort) = 0x01 ∧ statusCode (.error .badStartMarker) = 0x02 ∧
  statusCode (.error .crc8Mismatch) = 0x03 ∧ statusCode (.error .crc16Mismatch) = 0x04 ∧
  statusCode (.error .schemaLengthMismatch) = 0x05 ∧ statusCode (.error .trailingBytes) = 0x06 ∧
  statusCode (.refused .noFrame) = 0x80 ∧ statusCode (.refused .tooLong) = 0x81 ∧
  statusCode (.refused .illegal) = 0xFF ∧
  stageCode .none = 0 ∧ stageCode .hdr = 1 ∧ stageCode .pay = 2 ∧ stageCode .frm = 3

/-- R180: every operation gives the host exactly one result; one that is not a success has written nothing else and carries
no value (D14). -/
def Obligations.AtomicFailure : Prop :=
  ∀ (i : Instr) (s t : State), exec i s = .next t →
    ∃ r, t.results = r :: s.results ∧
      (r.st ≠ .ok → t = { s with results := r :: s.results } ∧ r.rBuf = none ∧ r.rVal = none)

/-- R170, R177, R178: which error kinds at which stages, and which refusals, each operation can return; the set is closed
(the refusals are D9, D10, D17; the stages D12). -/
def Obligations.ErrorsAreThoseOfTheTable : Prop :=
  ∀ (i : Instr) (s t : State) (r : Response), exec i s = .next t → t.results.head? = some r →
    match r.st with
    | .ok => r.stage = .none
    | .error k => mayRaise i k r.stage = true
    | .refused x => mayRefuse i x = true ∧ r.stage = .none

/-- R181: after an operation that is not a success every operation does what it would have done without it (D24). -/
def Obligations.FailureLeavesNoTrace : Prop :=
  ∀ (i j : Instr) (s t u v : State), exec i s = .next t → lastOk t = false →
    exec j s = .next u → exec j t = .next v →
    v.slot = u.slot ∧ v.params = u.params ∧ v.requests = u.requests ∧ v.results.head? = u.results.head?

/-- R182: every operation on well-typed operands ends, whatever the state, with `ok`, an error kind, `NO_FRAME` or `TOO_LONG`.
An operation on an ill-typed operand ends too, and `ILLEGAL` comes on no other operand (R178, the spec's decision D10).
However many steps are taken, the machine goes on; a run counts idle steps, which keep the state (R190) and are next states
by the model's choice (log entry 6). -/
def Obligations.NothingStopsTheMachine : Prop :=
  (∀ (i : Instr) (s : State), ∃ t r, exec i s = .next t ∧ t.results.head? = some r ∧
    (r.st = .ok ∨ (∃ k, r.st = .error k) ∨ r.st = .refused .noFrame ∨ r.st = .refused .tooLong ∨
      r.st = .refused .illegal ∧
        ((∃ p, i = .serializePayload p ∧ payloadTyped s.params p = false) ∨
          (∃ q p, i = .newFrameStruct q p ∧ structOperand s.params p = false) ∨
          ∃ p, i = .setPayloadStruct p ∧ structOperand s.params p = false))) ∧
  ∀ s : State, neverStops s

/-- R42, R206: at every time of every run the parameters, and with them every lookup and both checksum functions, are those
of the start. -/
def Obligations.ParametersNeverChange : Prop :=
  ∀ (n : Nat) (s t : State), Host.Core.run Sys2Proof.core n s = .next t →
    t.params.sof = s.params.sof ∧ (∀ id, lookup t.params id = lookup s.params id) ∧
    (∀ b, c8 t.params b = c8 s.params b) ∧ ∀ b, c16 t.params b = c16 s.params b

/-- R123: the state machine Empty, Fresh, Dirty (D7), for every operation. -/
def Obligations.FreshDirtyMachine : Prop :=
  ∀ (i : Instr) (s t : State), exec i s = .next t →
    (lastOk t = false → t.slot = s.slot) ∧
    (lastOk t = true →
      match i with
      | .parseFrame _ | .newFrameStruct _ _ | .newFrameRaw _ _ => phaseOf t.slot = .fresh
      | .setSeq _ | .setPayloadRaw _ | .setPayloadStruct _ =>
        phaseOf s.slot ≠ .empty ∧ phaseOf t.slot = .dirty
      | .recompute | .serializeFrame => phaseOf s.slot ≠ .empty ∧ phaseOf t.slot = .fresh
      | .getSeq | .getDataLength | .getHeaderChecksum | .getFrameTail | .getCmdId | .getPayloadRaw
      | .getPayloadStruct => phaseOf s.slot ≠ .empty ∧ t.slot = s.slot
      | .dropFrame => phaseOf t.slot = .empty
      | .checksum8 _ | .checksum16 _ | .parseHeader _ | .serializeHeader _ _ | .parsePayload _
      | .serializePayload _ => t.slot = s.slot)

/-- R19: no operation's result depends on `F.dirty`, and no other field does. -/
def Obligations.DirtyFlagUnobservable : Prop :=
  ∀ (i : Instr) (s t u : State) (f : Frame) (d : Bool), s.slot = .held f → exec i s = .next t →
    exec i { s with slot := .held { f with dirty := d } } = .next u →
    u.results = t.results ∧ u.fv = t.fv ∧
    ∀ g h, t.slot = .held g → u.slot = .held h → sameFrame g h

/-- R24: every step keeps the invariant of the frame slot. -/
def Obligations.StepKeepsInvariant : Prop :=
  ∀ s t : State, s.Inv → step s = .next t → t.Inv

/-- R24, R200: the invariant holds after reset. -/
def Obligations.ResetMeetsInvariant : Prop := State.reset.Inv

/-- R200, R201: after reset `FV = 0` and the parameters hold their configured values (D8). That the host has issued and
received nothing is the model's own (log entries 4 and 5). -/
def Obligations.ResetState : Prop :=
  State.reset.fv = false ∧ State.reset.slot = .empty ∧ State.reset.params = Config.params ∧
  State.reset.requests = [] ∧ State.reset.results = []

/-- R203: the first operation after reset. The pure operations and DROP_FRAME are never refused with `NO_FRAME` and leave the
slot empty; nor are the operations that load the slot, which hold a frame after it exactly when they succeed; every other
operation is refused with `NO_FRAME` and writes nothing (D9), but for a SET_PAYLOAD_STRUCT whose operand is no well-typed
`Struct`: that is `ILLEGAL`, which comes first (R179). -/
def Obligations.FirstOperationAfterReset : Prop :=
  ∀ (i : Instr) (t : State), exec i State.reset = .next t →
    match i with
    | .checksum8 _ | .checksum16 _ | .parseHeader _ | .serializeHeader _ _ | .parsePayload _ | .serializePayload _
    | .dropFrame => t.slot = .empty ∧ t.results.head? ≠ some (failResponse (.refuse .noFrame))
    | .parseFrame _ | .newFrameStruct _ _ | .newFrameRaw _ _ =>
      t.fv = lastOk t ∧ t.results.head? ≠ some (failResponse (.refuse .noFrame))
    | .setPayloadStruct p =>
      t = { State.reset with results :=
        [failResponse (.refuse (if structOperand State.reset.params p then .noFrame else .illegal))] }
    | .recompute | .serializeFrame | .setSeq _ | .setPayloadRaw _ | .getSeq | .getDataLength | .getHeaderChecksum
    | .getFrameTail | .getCmdId | .getPayloadRaw | .getPayloadStruct =>
      t = { State.reset with results := [failResponse (.refuse .noFrame)] }

/-! ### The operation interface -/

/-- R58, R59: a record is an operation exactly when its `OP` is the operation's and it agrees on the operands the row names;
every other operand is ignored. The numbers are the spec's decision D6. -/
def Obligations.DecodeEncodeAgree : Prop :=
  (∀ i : Instr, decode (encode i) = .ok i) ∧
  ∀ (r : Request) (i : Instr), decode r = .ok i ↔ r.op = opcodeOf i ∧ agreeOn (formatOf i) r (encode i)

/-- R58: the word of every row of the table, its 8 bits written out from it (the numbers are the spec's decision D6). A table
word carries no operand; that the operands are then empty, zero or `Raw(0, [])` is the model's choice (log entry 13). -/
def Obligations.TableWordsDecode : Prop :=
  decodeTableWord 8 0b00000001 = some (.checksum8 []) ∧ decodeTableWord 8 0b00000010 = some (.checksum16 []) ∧
  decodeTableWord 8 0b00010000 = some (.parseHeader []) ∧ decodeTableWord 8 0b00010001 = some (.serializeHeader 0 0) ∧
  decodeTableWord 8 0b00100000 = some (.parsePayload []) ∧
  decodeTableWord 8 0b00100001 = some (.serializePayload (.raw 0 [])) ∧
  decodeTableWord 8 0b00110000 = some (.parseFrame []) ∧ decodeTableWord 8 0b00110001 = some .recompute ∧
  decodeTableWord 8 0b00110010 = some .serializeFrame ∧
  decodeTableWord 8 0b01000000 = some (.newFrameStruct 0 (.raw 0 [])) ∧
  decodeTableWord 8 0b01000001 = some (.newFrameRaw 0 []) ∧
  decodeTableWord 8 0b01010000 = some (.setSeq 0) ∧ decodeTableWord 8 0b01010001 = some (.setPayloadRaw []) ∧
  decodeTableWord 8 0b01010010 = some (.setPayloadStruct (.raw 0 [])) ∧
  decodeTableWord 8 0b01100000 = some .getSeq ∧ decodeTableWord 8 0b01100001 = some .getDataLength ∧
  decodeTableWord 8 0b01100010 = some .getHeaderChecksum ∧ decodeTableWord 8 0b01100011 = some .getFrameTail ∧
  decodeTableWord 8 0b01100100 = some .getCmdId ∧ decodeTableWord 8 0b01100101 = some .getPayloadRaw ∧
  decodeTableWord 8 0b01100110 = some .getPayloadStruct ∧ decodeTableWord 8 0b01110000 = some .dropFrame

/-- R60: 234 of the 256 values of `OP` are no operation. -/
def Obligations.IllegalCodesCounted : Prop :=
  ((List.range 256).filter fun w => (decodeTableWord 8 w).isNone).length = 234

/-- R20, R40: when the record the host issues next decodes to an operation, the step is that operation's effect at the same
state, and the host goes on to its next record. -/
def Obligations.StepRunsTheOperation : Prop :=
  ∀ (s t : State) (r : Request) (rs : List Request) (i : Instr), s.requests = r :: rs → decode r = .ok i →
    exec i s = .next t → step s = .next { t with requests := rs } ∧ t.requests = s.requests

/-- R60, R178: a record whose `OP` is not in the table ends with `ILLEGAL`, writes no state and gives no result (D10). -/
def Obligations.StepRejectsIllegalOp : Prop :=
  ∀ (s : State) (r : Request) (rs : List Request), s.requests = r :: rs → (∀ i, opcodeOf i ≠ r.op) →
    step s = .next { s with requests := rs, results := failResponse (.refuse .illegal) :: s.results }

/-- R190: with no operation to perform the codec keeps its state. That an idle step is a next state and not a stop is the
model's choice (log entry 6). -/
def Obligations.IdleKeepsTheState : Prop := ∀ s : State, s.requests = [] → step s = .next s

/-- R142: NEW_FRAME_BYTES is PARSE_FRAME followed, on success, by a RECOMPUTE that changes no field. -/
def Obligations.NewFrameBytesIsParseFrame : Prop :=
  ∀ (buf : Bytes) (s t : State), exec (.parseFrame buf) s = .next t →
    (lastOk t = true → execPseudo (.newFrameBytes buf) s =
      .next { t with results := okResponse none none :: t.results }) ∧
    (lastOk t = false → execPseudo (.newFrameBytes buf) s = .next t)

/-- R62, R93: the header object's pseudo-operations. A header made from bytes gives back the five bytes it was made from,
and their fifth is its checksum; checking a header gives the status alone. -/
def Obligations.HeaderObject : Prop :=
  (∀ (buf : Bytes) (s t : State) (h : Header), execPseudo (.newHeaderBytes buf) s = .next t →
    t.results.head? = some (okResponse none (some (.header h))) →
    execPseudo (.headerBytes h.dl h.seq h.hc) s =
      .next { s with results := okResponse (some (buf.take 5)) none :: s.results } ∧
    buf[4]? = some h.hc) ∧
  ∀ (buf : Bytes) (s t : State) (r : Response), exec (.parseHeader buf) s = .next t → t.results.head? = some r →
    execPseudo (.checkHeader buf) s =
      .next { s with results := { r with rBuf := none, rVal := none } :: s.results }

/-! ### Several instances -/

/-- R25, R41: an operation performed on one instance is `exec` there, with its one result, and leaves every other instance as
it was; on different instances, both orders leave the same list of instances, and each instance in the state, with the
result, that its own operation gives it alone. -/
def Obligations.InstancesCommute : Prop :=
  (∀ (ss : List State) (k : Nat) (a : Instr) (s : State), ss[k]? = some s →
    ∃ t r, exec a s = .next t ∧ t.results = r :: s.results ∧ (performAt k a ss)[k]? = some t ∧
      (performAt k a ss).length = ss.length ∧ ∀ m, m ≠ k → (performAt k a ss)[m]? = ss[m]?) ∧
  ∀ (ss : List State) (j k : Nat) (a b : Instr) (s u : State), j ≠ k → ss[j]? = some s → ss[k]? = some u →
    ∃ t v p q, exec a s = .next t ∧ t.results = p :: s.results ∧ exec b u = .next v ∧ v.results = q :: u.results ∧
      performAt j a (performAt k b ss) = performAt k b (performAt j a ss) ∧
      (performAt j a (performAt k b ss))[j]? = some t ∧ (performAt j a (performAt k b ss))[k]? = some v

/-- R209: two instances that agree on `SOF`, `c8` and `c16`. A frame whose id the receiver does not know arrives as `Raw`
and leaves byte for byte; one whose id it knows with another width fails with `SchemaLengthMismatch`. -/
def Obligations.Interoperability : Prop :=
  ∀ (s t u : State) (f : Frame) (b : Bytes), s.Inv → s.slot = .held f → sameWire s.params u.params →
    exec .serializeFrame s = .next t → t.results.head? = some (okResponse (some b) none) →
    (lookup u.params (cmdId f.payload) = none →
      ∃ v w g, exec (.parseFrame b) u = .next v ∧ lastOk v = true ∧ v.slot = .held g ∧
        (∃ data, g.payload = .raw (cmdId f.payload) data) ∧
        exec .serializeFrame v = .next w ∧ w.results.head? = some (okResponse (some b) none)) ∧
    (∀ S, lookup u.params (cmdId f.payload) = some S → (encPayload s.params f.payload).length ≠ S.width + 2 →
      exec (.parseFrame b) u =
        .next { u with results := failResponse (.raise .schemaLengthMismatch .pay) :: u.results })

/-- The source's scenario (spec/95_test_vectors.md V1), for every `SOF`, `c8` and `c16`: a registry with id 0x0001 and one
unsigned 16-bit field; NEW_FRAME_STRUCT 5, Struct(0x0001, 42); SERIALIZE_FRAME. -/
def Obligations.ScenarioOfTheSource : Prop :=
  ∀ (s : State) (a8 : Byte) (a16 : U16),
    s.params.registry = [{ id := 0x0001, schema := .layout [{ name := "value", width := 2 }] }] →
    a8 = c8 s.params [s.params.sof, 0x04, 0x00, 0x05] →
    a16 = c16 s.params [s.params.sof, 0x04, 0x00, 0x05, a8, 0x01, 0x00, 0x2A, 0x00] →
    ∃ t u, exec (.newFrameStruct 5 (.struct 0x0001 [42])) s = .next t ∧ exec .serializeFrame t = .next u ∧
      u.results.head? = some (okResponse (some [s.params.sof, 0x04, 0x00, 0x05, a8, 0x01, 0x00, 0x2A, 0x00,
        lowByte a16, highByte a16]) none)
end

