-- ==== Sys2Proof/Laws/Buffers.lean ====
section
/-! SUPPORT. Byte order and slices. -/

namespace Sys2Proof.Machine

@[simp] theorem byteAt_cons_zero (x : Byte) (b : Bytes) : byteAt (x :: b) 0 = x := rfl

/-- Inside the buffer a read gives the byte of the list. -/
theorem byteAt_eq_getElem (b : Bytes) (i : Nat) (h : i < b.length) : byteAt b i = b[i] := by
  simp [byteAt, h]

theorem byteAt_append_right (a b : Bytes) (i : Nat) (h : i < b.length) :
    byteAt (a ++ b) (a.length + i) = byteAt b i := by
  rw [byteAt_eq_getElem _ _ (by rw [List.length_append]; omega), byteAt_eq_getElem _ _ h]
  simp

theorem ofLE16_toNat (lo hi : Byte) : (ofLE16 lo hi).toNat = lo.toNat + 256 * hi.toNat := by
  have h := lo.isLt
  show (hi ++ lo).toNat = _
  rw [BitVec.toNat_append, Nat.shiftLeft_eq, Nat.mul_comm, ← Nat.two_pow_add_eq_or_of_lt h]
  omega

/-- The byte order said in numbers (R33, R55). -/
theorem ofLE16_eq_assemble16 (lo hi : Byte) : ofLE16 lo hi = assemble16 lo hi := by
  have h := lo.isLt
  have h' := hi.isLt
  apply BitVec.eq_of_toNat_eq
  rw [ofLE16_toNat, assemble16, BitVec.toNat_ofNat]
  omega

theorem assemble16_toNat (lo hi : Byte) : (assemble16 lo hi).toNat = lo.toNat + 256 * hi.toNat := by
  rw [← ofLE16_eq_assemble16, ofLE16_toNat]

theorem le16_eq (v : U16) : le16 v = [lowByte v, highByte v] := by
  have h := v.isLt
  have h0 : v.extractLsb' 0 8 = lowByte v := by
    apply BitVec.eq_of_toNat_eq
    simp [lowByte, BitVec.extractLsb'_toNat]
  have h1 : v.extractLsb' 8 8 = highByte v := by
    apply BitVec.eq_of_toNat_eq
    simp [highByte, BitVec.extractLsb'_toNat, Nat.shiftRight_eq_div_pow]
  rw [le16, h0, h1]

@[simp] theorem le16_length (v : U16) : (le16 v).length = 2 := rfl

theorem assemble16_low_high (v : U16) : assemble16 (lowByte v) (highByte v) = v := by
  have h := v.isLt
  apply BitVec.eq_of_toNat_eq
  rw [assemble16_toNat, lowByte, highByte, BitVec.toNat_ofNat, BitVec.toNat_ofNat]
  omega

theorem lowByte_assemble16 (lo hi : Byte) : lowByte (assemble16 lo hi) = lo := by
  have h := lo.isLt
  apply BitVec.eq_of_toNat_eq
  rw [lowByte, assemble16_toNat, BitVec.toNat_ofNat]
  omega

theorem highByte_assemble16 (lo hi : Byte) : highByte (assemble16 lo hi) = hi := by
  have h := lo.isLt
  have h' := hi.isLt
  apply BitVec.eq_of_toNat_eq
  rw [highByte, assemble16_toNat, BitVec.toNat_ofNat]
  omega

/-- A 16-bit value read back from its two bytes. -/
theorem le16_assemble16 (lo hi : Byte) : le16 (assemble16 lo hi) = [lo, hi] := by
  rw [le16_eq, lowByte_assemble16, highByte_assemble16]

/-- `rdLE16` of the two bytes at the front. -/
theorem rdLE16_cons (lo hi : Byte) (b : Bytes) : rdLE16 (lo :: hi :: b) 0 = assemble16 lo hi :=
  ofLE16_eq_assemble16 lo hi

/-- `rdLE16` of the two bytes that follow `a`. -/
theorem rdLE16_append (a : Bytes) (lo hi : Byte) (b : Bytes) :
    rdLE16 (a ++ (lo :: hi :: b)) a.length = assemble16 lo hi := by
  have h0 := byteAt_append_right a (lo :: hi :: b) 0 (by simp)
  have h1 := byteAt_append_right a (lo :: hi :: b) 1 (by simp)
  rw [Nat.add_zero] at h0
  rw [rdLE16, h0, h1]
  exact ofLE16_eq_assemble16 lo hi

theorem slice_prefix (a b : Bytes) : slice (a ++ b) 0 a.length = a := by simp [slice]

theorem slice_mid (a b c : Bytes) (j : Nat) (h : j = a.length + b.length) :
    slice (a ++ b ++ c) a.length j = b := by
  subst h
  simp [slice]

theorem slice_suffix (a b : Bytes) (i : Nat) (h : i = a.length) : slice (a ++ b) i (a ++ b).length = b := by
  subst h
  simp [slice]

/-- Two little-endian 16-bit values with the same bytes are the same. -/
theorem le16_injective {v w : U16} (h : le16 v = le16 w) : v = w := by
  rw [le16_eq, le16_eq] at h
  simp only [List.cons.injEq, and_true] at h
  rw [← assemble16_low_high v, ← assemble16_low_high w, h.1, h.2]

end Sys2Proof.Machine
end

