-- ==== Sys2Proof/Laws/State.lean ====
section
/-! SUPPORT. One lemma per field per update of State, and what each shared operation answers, so that no later proof unfolds a
record update. -/

namespace Sys2Proof.Machine

@[simp] theorem answer_slot (s : State) (r : Response) : (s.answer r).slot = s.slot := rfl
@[simp] theorem answer_params (s : State) (r : Response) : (s.answer r).params = s.params := rfl
@[simp] theorem answer_requests (s : State) (r : Response) : (s.answer r).requests = s.requests := rfl
@[simp] theorem answer_results (s : State) (r : Response) : (s.answer r).results = r :: s.results := rfl
@[simp] theorem withSlot_slot (s : State) (x : Slot) : (s.withSlot x).slot = x := rfl
@[simp] theorem withSlot_params (s : State) (x : Slot) : (s.withSlot x).params = s.params := rfl
@[simp] theorem withSlot_requests (s : State) (x : Slot) : (s.withSlot x).requests = s.requests := rfl
@[simp] theorem withSlot_results (s : State) (x : Slot) : (s.withSlot x).results = s.results := rfl
@[simp] theorem withSlot_self (s : State) : s.withSlot s.slot = s := rfl
@[simp] theorem withFetchWord_slot (s : State) (n w : Nat) : (s.withFetchWord n w).slot = s.slot := rfl
@[simp] theorem withFetchWord_params (s : State) (n w : Nat) : (s.withFetchWord n w).params = s.params := rfl
@[simp] theorem withFetchWord_results (s : State) (n w : Nat) : (s.withFetchWord n w).results = s.results := rfl

@[simp] theorem markDirty_dl (f : Frame) : (markDirty f).dl = f.dl := rfl
@[simp] theorem markDirty_seq (f : Frame) : (markDirty f).seq = f.seq := rfl
@[simp] theorem markDirty_hc (f : Frame) : (markDirty f).hc = f.hc := rfl
@[simp] theorem markDirty_tail (f : Frame) : (markDirty f).tail = f.tail := rfl
@[simp] theorem markDirty_payload (f : Frame) : (markDirty f).payload = f.payload := rfl
@[simp] theorem markDirty_dirty (f : Frame) : (markDirty f).dirty = true := rfl

@[simp] theorem freshFrame_dl (P : Params) (q : Byte) (p : Payload) : (freshFrame P q p).dl = payloadLength P p := rfl
@[simp] theorem freshFrame_seq (P : Params) (q : Byte) (p : Payload) : (freshFrame P q p).seq = q := rfl
@[simp] theorem freshFrame_payload (P : Params) (q : Byte) (p : Payload) : (freshFrame P q p).payload = p := rfl
@[simp] theorem freshFrame_dirty (P : Params) (q : Byte) (p : Payload) : (freshFrame P q p).dirty = false := rfl
@[simp] theorem recompute_seq (P : Params) (f : Frame) : (recompute P f).seq = f.seq := rfl
@[simp] theorem recompute_payload (P : Params) (f : Frame) : (recompute P f).payload = f.payload := rfl
@[simp] theorem recompute_dirty (P : Params) (f : Frame) : (recompute P f).dirty = false := rfl

/-- RECOMPUTE of a frame that is derived from its own payload and `seq` is that frame. -/
theorem recompute_freshFrame (P : Params) (q : Byte) (p : Payload) :
    recompute P (freshFrame P q p) = freshFrame P q p := rfl

@[simp] theorem okResponse_st (b : Option Bytes) (v : Option ResultValue) : (okResponse b v).st = .ok := rfl
@[simp] theorem okResponse_stage (b : Option Bytes) (v : Option ResultValue) : (okResponse b v).stage = .none := rfl

/-- A failure never has the status of a success (R170, R178). -/
theorem failResponse_st_ne_ok (e : Failure) : (failResponse e).st ≠ .ok := by cases e <;> simp [failResponse]

theorem okResponse_ne_failResponse (b : Option Bytes) (v : Option ResultValue) (e : Failure) :
    okResponse b v ≠ failResponse e := fun h => failResponse_st_ne_ok e (congrArg Response.st h).symm

@[simp] theorem lastOk_answer_ok (s : State) (b : Option Bytes) (v : Option ResultValue) :
    lastOk (s.answer (okResponse b v)) = true := rfl

@[simp] theorem lastOk_answer_fail (s : State) (e : Failure) : lastOk (s.answer (failResponse e)) = false := by
  cases e <;> rfl

theorem onFrame_empty {s : State} (k : Frame → StepOutcome) (h : s.slot = .empty) :
    s.onFrame k = s.fail (.refuse .noFrame) := by simp [State.onFrame, h]

theorem onFrame_held {s : State} {f : Frame} (k : Frame → StepOutcome) (h : s.slot = .held f) :
    s.onFrame k = k f := by simp [State.onFrame, h]

/-- The two outcomes of an operation that needs a frame (R178). -/
theorem onFrame_cases (s : State) (k : Frame → StepOutcome) :
    (s.slot = .empty ∧ s.onFrame k = s.fail (.refuse .noFrame)) ∨ ∃ f, s.slot = .held f ∧ s.onFrame k = k f := by
  cases h : s.slot with
  | empty => exact .inl ⟨rfl, onFrame_empty k h⟩
  | held f => exact .inr ⟨f, rfl, onFrame_held k h⟩

end Sys2Proof.Machine
end

