-- ==== Sys2Proof/Laws/Header.lean ====
section
/-! SUPPORT. What the header codec answers, said once. -/

namespace Sys2Proof.Machine

theorem headerPrefix_eq (P : Params) (dl : U16) (seq : Byte) :
    headerPrefix P dl seq = [P.sof, lowByte dl, highByte dl, seq] := by rw [headerPrefix, le16_eq]; rfl

theorem headerBytes_eq (P : Params) (dl : U16) (seq : Byte) :
    headerBytes P dl seq = [P.sof, lowByte dl, highByte dl, seq, headerChecksum P dl seq] := by
  rw [headerBytes, headerPrefix_eq]; rfl

@[simp] theorem headerBytes_length (P : Params) (dl : U16) (seq : Byte) : (headerBytes P dl seq).length = 5 := rfl

theorem parseHeader_short {P : Params} {buf : Bytes} (h : buf.length < 5) :
    parseHeader P buf = .error (.raise .tooShort .hdr) := by simp [parseHeader, h]

/-- The parser on a buffer of five bytes or more (R90). -/
theorem parseHeader_cons (P : Params) (b0 b1 b2 b3 b4 : Byte) (rest : Bytes) :
    parseHeader P (b0 :: b1 :: b2 :: b3 :: b4 :: rest) =
      if b0 ≠ P.sof then .error (.raise .badStartMarker .hdr)
      else if c8 P [b0, b1, b2, b3] ≠ b4 then .error (.raise .crc8Mismatch .hdr)
      else .ok { dl := assemble16 b1 b2, seq := b3, hc := b4 } := by
  have h1 : rdLE16 (b0 :: b1 :: b2 :: b3 :: b4 :: rest) 1 = assemble16 b1 b2 := rdLE16_append [b0] b1 b2 _
  have h0 : byteAt (b0 :: b1 :: b2 :: b3 :: b4 :: rest) 0 = b0 := rfl
  have h3 : byteAt (b0 :: b1 :: b2 :: b3 :: b4 :: rest) 3 = b3 := rfl
  have h4 : byteAt (b0 :: b1 :: b2 :: b3 :: b4 :: rest) 4 = b4 := rfl
  have hs : slice (b0 :: b1 :: b2 :: b3 :: b4 :: rest) 0 4 = [b0, b1, b2, b3] := rfl
  have hl : ¬ (b0 :: b1 :: b2 :: b3 :: b4 :: rest).length < 5 := by simp
  simp only [parseHeader, h0, h1, h3, h4, hs, hl, if_false]

/-- A buffer of five bytes or more, taken apart. -/
theorem exists_five {buf : Bytes} (h : 5 ≤ buf.length) :
    ∃ b0 b1 b2 b3 b4 rest, buf = b0 :: b1 :: b2 :: b3 :: b4 :: rest := by
  match buf, h with
  | b0 :: b1 :: b2 :: b3 :: b4 :: rest, _ => exact ⟨b0, b1, b2, b3, b4, rest, rfl⟩

/-- A success of the parser (R90): the buffer begins with the header of the fields, and `hc` is its checksum. -/
theorem parseHeader_ok {P : Params} {buf : Bytes} {h : Header} (e : parseHeader P buf = .ok h) :
    h.hc = headerChecksum P h.dl h.seq ∧ ∃ rest, buf = headerBytes P h.dl h.seq ++ rest := by
  by_cases hl : buf.length < 5
  · rw [parseHeader_short hl] at e; cases e
  · obtain ⟨b0, b1, b2, b3, b4, rest, rfl⟩ := exists_five (Nat.le_of_not_lt hl)
    rw [parseHeader_cons] at e
    split at e
    · cases e
    · next h0 =>
      split at e
      · cases e
      · next h4 =>
        rw [not_not] at h0 h4
        cases e
        have hc : b4 = headerChecksum P (assemble16 b1 b2) b3 := by
          rw [headerChecksum, headerPrefix_eq, lowByte_assemble16, highByte_assemble16, ← h0, h4]
        refine ⟨hc, rest, ?_⟩
        rw [headerBytes_eq, lowByte_assemble16, highByte_assemble16, ← hc, ← h0]
        rfl

/-- The parser undoes the serializer, whatever follows the five bytes (R92). -/
theorem parseHeader_headerBytes (P : Params) (dl : U16) (seq : Byte) (rest : Bytes) :
    parseHeader P (headerBytes P dl seq ++ rest) =
      .ok { dl := dl, seq := seq, hc := headerChecksum P dl seq } := by
  have hc : headerChecksum P dl seq = c8 P [P.sof, lowByte dl, highByte dl, seq] := by
    rw [headerChecksum, headerPrefix_eq]
  rw [headerBytes_eq]
  simp only [List.cons_append, List.nil_append]
  rw [parseHeader_cons, assemble16_low_high]
  simp [hc]

/-- A failure of the parser (R171 to R173). -/
theorem parseHeader_error {P : Params} {buf : Bytes} {e : Failure} (h : parseHeader P buf = .error e) :
    e = .raise .tooShort .hdr ∨ e = .raise .badStartMarker .hdr ∨ e = .raise .crc8Mismatch .hdr := by
  simp only [parseHeader] at h
  split at h
  · cases h; exact .inl rfl
  · split at h
    · cases h; exact .inr (.inl rfl)
    · split at h
      · cases h; exact .inr (.inr rfl)
      · cases h

end Sys2Proof.Machine
end

