-- ==== Sys2Proof/Laws/Payload.lean ====
section
/-! SUPPORT. What the dispatcher answers, said once: its outcomes by the shape of the buffer, what a success says of the
payload, and that it undoes `encPayload`. -/

namespace Sys2Proof.Machine

/-- The serialized form of a well-typed `Struct` (R100). -/
theorem encPayload_struct {P : Params} {id : U16} {S : Schema} (h : lookup P id = some S) {v : Value}
    (hv : S.isVal v = true) : encPayload P (.struct id v) = le16 id ++ S.enc v := by
  simp [encPayload, structBytes, h, hv]

theorem encPayload_raw (P : Params) (id : U16) (data : Bytes) : encPayload P (.raw id data) = le16 id ++ data := rfl

/-- Every serialized payload begins with its id (R100). -/
theorem encPayload_eq (P : Params) (p : Payload) : ∃ rest, encPayload P p = le16 (cmdId p) ++ rest := by
  cases p with
  | struct id v => exact ⟨structBytes P id v, rfl⟩
  | raw id data => exact ⟨data, rfl⟩

theorem encPayload_length (P : Params) (p : Payload) : 2 ≤ (encPayload P p).length := by
  obtain ⟨rest, h⟩ := encPayload_eq P p
  rw [h, List.length_append, le16_length]
  omega

theorem payloadTyped_struct {P : Params} {id : U16} {v : Value} :
    payloadTyped P (.struct id v) = true ↔ ∃ S, lookup P id = some S ∧ S.isVal v = true := by
  simp only [payloadTyped, structTyped]
  cases h : lookup P id with
  | none => simp
  | some S => simp

theorem structOperand_eq_true {P : Params} {p : Payload} (h : structOperand P p = true) :
    ∃ id v S, p = .struct id v ∧ lookup P id = some S ∧ S.isVal v = true := by
  simp only [structOperand, Bool.and_eq_true] at h
  cases p with
  | raw id data => simp [isStruct] at h
  | struct id v =>
    obtain ⟨S, hS, hv⟩ := payloadTyped_struct.mp h.2
    exact ⟨id, v, S, rfl, hS, hv⟩

theorem structOperand_struct {P : Params} {id : U16} {v : Value} {S : Schema} (h : lookup P id = some S)
    (hv : S.isVal v = true) : structOperand P (.struct id v) = true := by
  simp [structOperand, isStruct, payloadTyped, structTyped, h, hv]

theorem parsePayload_short {P : Params} {buf : Bytes} (h : buf.length < 2) :
    parsePayload P buf = .error (.raise .tooShort .pay) := by simp [parsePayload, h]

/-- The dispatcher on a buffer with room for the id (R103). -/
theorem parsePayload_cons (P : Params) (lo hi : Byte) (rest : Bytes) :
    parsePayload P (lo :: hi :: rest) =
      match lookup P (assemble16 lo hi) with
      | some S =>
        if rest.length ≠ S.width then .error (.raise .schemaLengthMismatch .pay)
        else .ok (.struct (assemble16 lo hi) (S.dec rest))
      | none => .ok (.raw (assemble16 lo hi) rest) := by
  have hs : slice (lo :: hi :: rest) 2 (lo :: hi :: rest).length = rest := slice_suffix [lo, hi] rest 2 rfl
  have hl : ¬ (lo :: hi :: rest).length < 2 := by simp
  cases hL : lookup P (assemble16 lo hi) <;> simp only [parsePayload, rdLE16_cons, hs, hl, hL, if_false]

/-- A success of the dispatcher (R103): the payload is well typed, a `Raw` has an unregistered id, and the payload's bytes
are the buffer. -/
theorem parsePayload_ok {P : Params} {buf : Bytes} {p : Payload} (h : parsePayload P buf = .ok p) :
    payloadTyped P p = true ∧ (∀ id data, p = .raw id data → lookup P id = none) ∧ encPayload P p = buf := by
  match buf with
  | [] => simp [parsePayload] at h
  | [x] => simp [parsePayload] at h
  | lo :: hi :: rest =>
    rw [parsePayload_cons] at h
    cases hl : lookup P (assemble16 lo hi) with
    | none =>
      simp only [hl, Except.ok.injEq] at h
      subst h
      refine ⟨rfl, ?_, ?_⟩
      · intro id data e
        cases e
        exact hl
      · rw [encPayload_raw, le16_assemble16]; rfl
    | some S =>
      simp only [hl] at h
      split at h
      · cases h
      · next hw =>
        rw [not_not] at hw
        simp only [Except.ok.injEq] at h
        subst h
        refine ⟨payloadTyped_struct.mpr ⟨S, hl, S.dec_isVal rest hw⟩, ?_, ?_⟩
        · intro id data e
          cases e
        · rw [encPayload_struct hl (S.dec_isVal rest hw), S.enc_dec rest hw, le16_assemble16]; rfl

/-- A failure of the dispatcher (R171, R175). -/
theorem parsePayload_error {P : Params} {buf : Bytes} {e : Failure} (h : parsePayload P buf = .error e) :
    (e = .raise .tooShort .pay ∧ buf.length < 2) ∨ e = .raise .schemaLengthMismatch .pay := by
  match buf with
  | [] => simp [parsePayload] at h; exact .inl ⟨h.symm, by simp⟩
  | [x] => simp [parsePayload] at h; exact .inl ⟨h.symm, by simp⟩
  | lo :: hi :: rest =>
    rw [parsePayload_cons] at h
    cases hl : lookup P (assemble16 lo hi) with
    | none => simp [hl] at h
    | some S =>
      simp only [hl] at h
      split at h
      · cases h; exact .inr rfl
      · cases h

/-- The dispatcher undoes `encPayload` on every payload that can stand in the slot. -/
theorem parsePayload_encPayload {P : Params} {p : Payload} (ht : payloadTyped P p = true)
    (hr : ∀ id data, p = .raw id data → lookup P id = none) : parsePayload P (encPayload P p) = .ok p := by
  cases p with
  | raw id data =>
    rw [encPayload_raw, le16_eq, List.cons_append, List.cons_append, List.nil_append, parsePayload_cons,
      assemble16_low_high, hr id data rfl]
  | struct id v =>
    obtain ⟨S, hS, hv⟩ := payloadTyped_struct.mp ht
    rw [encPayload_struct hS hv, le16_eq, List.cons_append, List.cons_append, List.nil_append, parsePayload_cons,
      assemble16_low_high, hS]
    simp [S.enc_length v hv, S.dec_enc v hv]

/-- A well-typed `Struct` fits a frame (S1, S4). -/
theorem encPayload_struct_length {P : Params} {id : U16} {v : Value} {S : Schema} (h : lookup P id = some S)
    (hv : S.isVal v = true) : (encPayload P (.struct id v)).length ≤ pmax := by
  have := S.width_le
  rw [encPayload_struct h hv, List.length_append, le16_length, S.enc_length v hv]
  show 2 + S.width ≤ 65535
  omega

end Sys2Proof.Machine
end

