-- ==== Sys2Proof/Laws/Frame.lean ====
section
/-! SUPPORT. What the frame assembler answers, said once: the outcomes of the frame parser by the shape of the buffer, what a
success says, and that it undoes the serializer. -/

namespace Sys2Proof.Machine

/-- The frame parser stops where the header parser does (R120 step 1). -/
theorem parseFrame_header_error {P : Params} {buf : Bytes} {e : Failure} (h : parseHeader P buf = .error e) :
    parseFrame P buf = .error e := by simp [parseFrame, h]

/-- Header sound, buffer too short (R120 step 2). -/
theorem parseFrame_tooShort {P : Params} {buf : Bytes} {h : Header} (hh : parseHeader P buf = .ok h)
    (hl : buf.length < 5 + h.dl.toNat + 2) : parseFrame P buf = .error (.raise .tooShort .frm) := by
  simp [parseFrame, hh, hl]

/-- Header sound, buffer too long (R120 step 2). -/
theorem parseFrame_trailing {P : Params} {buf : Bytes} {h : Header} (hh : parseHeader P buf = .ok h)
    (hl : 5 + h.dl.toNat + 2 < buf.length) : parseFrame P buf = .error (.raise .trailingBytes .frm) := by
  have hn : ¬ buf.length < 5 + h.dl.toNat + 2 := by omega
  simp only [parseFrame, hh, hn, if_false, gt_iff_lt, hl, if_true]

/-- Header sound, length exact: the tail, then the payload (R120 steps 3 to 5). `h5` is the header. -/
theorem parseFrame_exact {P : Params} {h5 pay : Bytes} {t0 t1 : Byte} {h : Header} (h5l : h5.length = 5)
    (hh : parseHeader P (h5 ++ pay ++ [t0, t1]) = .ok h) (hl : pay.length = h.dl.toNat) :
    parseFrame P (h5 ++ pay ++ [t0, t1]) =
      if c16 P (h5 ++ pay) ≠ assemble16 t0 t1 then .error (.raise .crc16Mismatch .frm)
      else
        match parsePayload P pay with
        | .error e => .error e
        | .ok p => .ok { dl := h.dl, seq := h.seq, hc := h.hc, tail := assemble16 t0 t1, payload := p,
                         dirty := false } := by
  have hlen : (h5 ++ pay ++ [t0, t1]).length = 5 + h.dl.toNat + 2 := by simp [h5l, hl]; omega
  have hstop : (h5 ++ pay).length = 5 + h.dl.toNat := by simp [h5l, hl]
  have htail : rdLE16 (h5 ++ pay ++ [t0, t1]) (5 + h.dl.toNat) = assemble16 t0 t1 := by
    rw [← hstop]; exact rdLE16_append _ t0 t1 []
  have hcov : slice (h5 ++ pay ++ [t0, t1]) 0 (5 + h.dl.toNat) = h5 ++ pay := by
    rw [← hstop]; exact slice_prefix _ _
  have hpay : slice (h5 ++ pay ++ [t0, t1]) 5 (5 + h.dl.toNat) = pay := by
    have := slice_mid h5 pay [t0, t1] (5 + h.dl.toNat) (by omega)
    rwa [h5l] at this
  cases hp : parsePayload P pay <;>
    simp only [parseFrame, hh, hlen, htail, hcov, hpay, hp, Nat.lt_irrefl, if_false, gt_iff_lt]

/-- A buffer of exactly `5 + n + 2` bytes, taken apart. -/
theorem exists_frame_parts {buf : Bytes} {n : Nat} (h : buf.length = 5 + n + 2) :
    ∃ h5 pay t0 t1, buf = h5 ++ pay ++ [t0, t1] ∧ h5.length = 5 ∧ pay.length = n := by
  have ht : (buf.drop (5 + n)).length = 2 := by rw [List.length_drop]; omega
  obtain ⟨t0, t1, htl⟩ := List.length_eq_two.mp ht
  refine ⟨buf.take 5, (buf.drop 5).take n, t0, t1, ?_, ?_, ?_⟩
  · rw [← htl]
    have : buf.drop (5 + n) = (buf.drop 5).drop n := by rw [List.drop_drop]
    rw [this, List.append_assoc, List.take_append_drop, List.take_append_drop]
  · rw [List.length_take]; omega
  · rw [List.length_take, List.length_drop]; omega

/-- A failure of the frame parser is one of those R120 lists. -/
theorem parseFrame_error {P : Params} {buf : Bytes} {e : Failure} (h : parseFrame P buf = .error e) :
    (e = .raise .tooShort .hdr ∨ e = .raise .badStartMarker .hdr ∨ e = .raise .crc8Mismatch .hdr) ∨
    e = .raise .tooShort .frm ∨ e = .raise .trailingBytes .frm ∨ e = .raise .crc16Mismatch .frm ∨
    e = .raise .tooShort .pay ∨ e = .raise .schemaLengthMismatch .pay := by
  cases hh : parseHeader P buf with
  | error e' =>
    rw [parseFrame_header_error hh] at h
    cases h
    exact .inl (parseHeader_error hh)
  | ok hd =>
    simp only [parseFrame, hh] at h
    split at h
    · cases h; simp
    · split at h
      · cases h; simp
      · split at h
        · cases h; simp
        · split at h
          · next e' hp =>
            cases h
            rcases parsePayload_error hp with h1 | h1
            · simp [h1.1]
            · simp [h1]
          · cases h

/-- A success of the frame parser (R120): the buffer is the frame's bytes, and the frame is the one derived from its `seq`
and payload, whose payload is well typed, not a `Raw` of a registered id, and of the length stored. -/
theorem parseFrame_ok {P : Params} {buf : Bytes} {f : Frame} (e : parseFrame P buf = .ok f) :
    buf = frameBytes P f ∧ f = freshFrame P f.seq f.payload ∧ payloadTyped P f.payload = true ∧
    (∀ id data, f.payload = .raw id data → lookup P id = none) ∧ f.dl.toNat = (encPayload P f.payload).length := by
  cases hh : parseHeader P buf with
  | error e' => rw [parseFrame_header_error hh] at e; cases e
  | ok h =>
    obtain ⟨hhc, rest, hbuf⟩ := parseHeader_ok hh
    by_cases h1 : buf.length < 5 + h.dl.toNat + 2
    · rw [parseFrame_tooShort hh h1] at e; cases e
    by_cases h2 : 5 + h.dl.toNat + 2 < buf.length
    · rw [parseFrame_trailing hh h2] at e; cases e
    obtain ⟨h5, pay, t0, t1, hb, h5l, hpl⟩ := exists_frame_parts (buf := buf) (n := h.dl.toNat) (by omega)
    have h5e : h5 = headerBytes P h.dl h.seq := by
      rw [hb, List.append_assoc] at hbuf
      exact (List.append_inj hbuf (by rw [h5l, headerBytes_length])).1
    rw [hb] at hh e
    rw [parseFrame_exact h5l hh hpl] at e
    split at e
    · cases e
    · next ht =>
      rw [not_not] at ht
      cases hp : parsePayload P pay with
      | error e' => rw [hp] at e; cases e
      | ok p =>
        rw [hp] at e
        simp only [Except.ok.injEq] at e
        subst e
        obtain ⟨hty, hraw, henc⟩ := parsePayload_ok hp
        have hdl : payloadLength P p = h.dl := by
          rw [payloadLength, henc, hpl, BitVec.ofNat_toNat, BitVec.setWidth_eq]
        refine ⟨?_, ?_, hty, hraw, by rw [henc, hpl]⟩
        · rw [hb, frameBytes, henc, h5e, le16_assemble16]
        · simp only [freshFrame, markFresh, coveredBytes, hdl, henc, hhc]
          rw [← ht, h5e]

/-- The frame parser undoes the serializer on every frame whose payload fits and can stand in the slot (R124). -/
theorem parseFrame_frameBytes {P : Params} {q : Byte} {p : Payload} (ht : payloadTyped P p = true)
    (hr : ∀ id data, p = .raw id data → lookup P id = none) (hl : (encPayload P p).length ≤ pmax) :
    parseFrame P (frameBytes P (freshFrame P q p)) = .ok (freshFrame P q p) := by
  have hdl : (payloadLength P p).toNat = (encPayload P p).length := by
    rw [payloadLength, BitVec.toNat_ofNat]
    exact Nat.mod_eq_of_lt (Nat.lt_succ_of_le hl)
  have hh := parseHeader_headerBytes P (payloadLength P p) q
    (encPayload P p ++ [lowByte (freshFrame P q p).tail, highByte (freshFrame P q p).tail])
  rw [← List.append_assoc] at hh
  rw [frameBytes, le16_eq, freshFrame_dl, freshFrame_seq, freshFrame_payload]
  rw [parseFrame_exact (headerBytes_length ..) hh hdl.symm, assemble16_low_high, parsePayload_encPayload ht hr]
  simp [freshFrame, markFresh, coveredBytes]

end Sys2Proof.Machine
end

