-- ==== Sys2Proof/Laws/Exec.lean ====
section
/-! SUPPORT. What an operation can do, said once: every operation ends in a failure that writes nothing or in a success that
writes the slot; and what the slot holds after one. -/

namespace Sys2Proof.Machine

theorem fail_eq (s : State) (e : Failure) : s.fail e = .next (s.answer (failResponse e)) := rfl

theorem finish_eq (s : State) (x : Slot) (b : Option Bytes) (v : Option ResultValue) :
    s.finish x b v = .next ((s.withSlot x).answer (okResponse b v)) := rfl

/-- An operation fails, or succeeds with some slot and some results. -/
def failsOrFinishes (s : State) (o : StepOutcome) : Prop :=
  (∃ e, o = s.fail e) ∨ ∃ x b v, o = s.finish x b v

theorem failsOrFinishes_fail (s : State) (e : Failure) : failsOrFinishes s (s.fail e) := .inl ⟨e, rfl⟩

theorem failsOrFinishes_finish (s : State) (x : Slot) (b : Option Bytes) (v : Option ResultValue) :
    failsOrFinishes s (s.finish x b v) := .inr ⟨x, b, v, rfl⟩

theorem failsOrFinishes_onFrame (s : State) (k : Frame → StepOutcome) (h : ∀ f, failsOrFinishes s (k f)) :
    failsOrFinishes s (s.onFrame k) := by
  rcases onFrame_cases s k with ⟨_, e⟩ | ⟨f, _, e⟩
  · exact .inl ⟨_, e⟩
  · rw [e]; exact h f

/-- What an operation can do: fail and write nothing, or succeed and write the slot. -/
theorem exec_failsOrFinishes (i : Instr) (s : State) : failsOrFinishes s (exec i s) := by
  cases i with
  | checksum8 buf => exact failsOrFinishes_finish ..
  | checksum16 buf => exact failsOrFinishes_finish ..
  | parseHeader buf =>
    show failsOrFinishes s (execParseHeader buf s)
    unfold execParseHeader
    split
    · exact failsOrFinishes_fail ..
    · exact failsOrFinishes_finish ..
  | serializeHeader dl seq => exact failsOrFinishes_finish ..
  | parsePayload buf =>
    show failsOrFinishes s (execParsePayload buf s)
    unfold execParsePayload
    split
    · exact failsOrFinishes_fail ..
    · exact failsOrFinishes_finish ..
  | serializePayload pay =>
    show failsOrFinishes s (execSerializePayload pay s)
    unfold execSerializePayload
    split
    · exact failsOrFinishes_finish ..
    · exact failsOrFinishes_fail ..
  | parseFrame buf =>
    show failsOrFinishes s (execParseFrame buf s)
    unfold execParseFrame
    split
    · exact failsOrFinishes_fail ..
    · exact failsOrFinishes_finish ..
  | newFrameStruct seq pay =>
    show failsOrFinishes s (execNewFrameStruct seq pay s)
    unfold execNewFrameStruct
    split
    · exact failsOrFinishes_finish ..
    · exact failsOrFinishes_fail ..
  | newFrameRaw seq buf =>
    show failsOrFinishes s (execNewFrameRaw seq buf s)
    unfold execNewFrameRaw
    split
    · split
      · exact failsOrFinishes_fail ..
      · exact failsOrFinishes_finish ..
    · exact failsOrFinishes_fail ..
  | setPayloadRaw buf =>
    refine failsOrFinishes_onFrame s _ fun f => ?_
    split
    · split
      · exact failsOrFinishes_fail ..
      · exact failsOrFinishes_finish ..
    · exact failsOrFinishes_fail ..
  | setPayloadStruct pay =>
    show failsOrFinishes s (execSetPayloadStruct pay s)
    unfold execSetPayloadStruct
    split
    · exact failsOrFinishes_onFrame s _ fun f => failsOrFinishes_finish ..
    · exact failsOrFinishes_fail ..
  | recompute => exact failsOrFinishes_onFrame s _ fun f => failsOrFinishes_finish ..
  | serializeFrame => exact failsOrFinishes_onFrame s _ fun f => failsOrFinishes_finish ..
  | setSeq seq => exact failsOrFinishes_onFrame s _ fun f => failsOrFinishes_finish ..
  | getSeq => exact failsOrFinishes_onFrame s _ fun f => failsOrFinishes_finish ..
  | getDataLength => exact failsOrFinishes_onFrame s _ fun f => failsOrFinishes_finish ..
  | getHeaderChecksum => exact failsOrFinishes_onFrame s _ fun f => failsOrFinishes_finish ..
  | getFrameTail => exact failsOrFinishes_onFrame s _ fun f => failsOrFinishes_finish ..
  | getCmdId => exact failsOrFinishes_onFrame s _ fun f => failsOrFinishes_finish ..
  | getPayloadRaw => exact failsOrFinishes_onFrame s _ fun f => failsOrFinishes_finish ..
  | getPayloadStruct => exact failsOrFinishes_onFrame s _ fun f => failsOrFinishes_finish ..
  | dropFrame => exact failsOrFinishes_finish ..

/-- `exec` of a PARSE_FRAME, by what the frame parser answers. -/
theorem exec_parseFrame_error {s : State} {buf : Bytes} {e : Failure} (h : parseFrame s.params buf = .error e) :
    exec (.parseFrame buf) s = s.fail e := by
  show execParseFrame buf s = _
  simp [execParseFrame, h]

theorem exec_parseFrame_ok {s : State} {buf : Bytes} {f : Frame} (h : parseFrame s.params buf = .ok f) :
    exec (.parseFrame buf) s = s.finishSlot (.held f) := by
  show execParseFrame buf s = _
  simp [execParseFrame, h]

theorem exec_parseHeader_error {s : State} {buf : Bytes} {e : Failure} (h : parseHeader s.params buf = .error e) :
    exec (.parseHeader buf) s = s.fail e := by
  show execParseHeader buf s = _
  simp [execParseHeader, h]

theorem exec_parseHeader_ok {s : State} {buf : Bytes} {h : Header} (e : parseHeader s.params buf = .ok h) :
    exec (.parseHeader buf) s = s.finishValue (.header h) := by
  show execParseHeader buf s = _
  simp [execParseHeader, e]

theorem exec_parsePayload_error {s : State} {buf : Bytes} {e : Failure} (h : parsePayload s.params buf = .error e) :
    exec (.parsePayload buf) s = s.fail e := by
  show execParsePayload buf s = _
  simp [execParsePayload, h]

theorem exec_parsePayload_ok {s : State} {buf : Bytes} {p : Payload} (h : parsePayload s.params buf = .ok p) :
    exec (.parsePayload buf) s = s.finishValue (.payload p) := by
  show execParsePayload buf s = _
  simp [execParsePayload, h]

theorem exec_serializeFrame_held {s : State} {f : Frame} (h : s.slot = .held f) :
    exec .serializeFrame s =
      s.finish (.held (recompute s.params f)) (some (frameBytes s.params (recompute s.params f))) .none :=
  onFrame_held _ h

theorem exec_recompute_held {s : State} {f : Frame} (h : s.slot = .held f) :
    exec .recompute s = s.finishSlot (.held (recompute s.params f)) := onFrame_held _ h

/-- What NEW_FRAME_RAW does, by the length and the dispatcher (R141). -/
theorem exec_newFrameRaw (s : State) (seq : Byte) (buf : Bytes) :
    exec (.newFrameRaw seq buf) s =
      if rawFits buf then
        match parsePayload s.params buf with
        | .error e => s.fail e
        | .ok p => s.finishSlot (.held (freshFrame s.params seq p))
      else s.fail (.refuse .tooLong) := rfl

/-- What an operation does depends on the slot and the parameters alone: neither the host's operations to come nor the results it
has received play a part (R40, R181). -/
theorem exec_slot_params_only (i : Instr) (x : Slot) (P : Params) (q q' : List Request) (r r' : List Response) :
    (∃ e, exec i ⟨x, P, q, r⟩ = State.fail ⟨x, P, q, r⟩ e ∧ exec i ⟨x, P, q', r'⟩ = State.fail ⟨x, P, q', r'⟩ e) ∨
    ∃ y b v, exec i ⟨x, P, q, r⟩ = State.finish ⟨x, P, q, r⟩ y b v ∧
      exec i ⟨x, P, q', r'⟩ = State.finish ⟨x, P, q', r'⟩ y b v := by
  cases i
  case checksum8 | checksum16 | serializeHeader | dropFrame => exact .inr ⟨_, _, _, rfl, rfl⟩
  case parseHeader b =>
    cases h : parseHeader P b with
    | error e => exact .inl ⟨e, exec_parseHeader_error h, exec_parseHeader_error h⟩
    | ok y => exact .inr ⟨_, _, _, exec_parseHeader_ok h, exec_parseHeader_ok h⟩
  case parsePayload b =>
    cases h : parsePayload P b with
    | error e => exact .inl ⟨e, exec_parsePayload_error h, exec_parsePayload_error h⟩
    | ok y => exact .inr ⟨_, _, _, exec_parsePayload_ok h, exec_parsePayload_ok h⟩
  case parseFrame b =>
    cases h : parseFrame P b with
    | error e => exact .inl ⟨e, exec_parseFrame_error h, exec_parseFrame_error h⟩
    | ok y => exact .inr ⟨_, _, _, exec_parseFrame_ok h, exec_parseFrame_ok h⟩
  case serializePayload p =>
    by_cases h : payloadTyped P p = true
    · exact .inr ⟨_, _, _, if_pos h, if_pos h⟩
    · exact .inl ⟨_, if_neg h, if_neg h⟩
  case newFrameStruct q p =>
    by_cases h : structOperand P p = true
    · exact .inr ⟨_, _, _, if_pos h, if_pos h⟩
    · exact .inl ⟨_, if_neg h, if_neg h⟩
  case newFrameRaw q b =>
    simp only [exec_newFrameRaw]
    split
    · split
      · exact .inl ⟨_, rfl, rfl⟩
      · exact .inr ⟨_, _, _, rfl, rfl⟩
    · exact .inl ⟨_, rfl, rfl⟩
  case setPayloadRaw b =>
    cases x with
    | empty => exact .inl ⟨_, rfl, rfl⟩
    | held f =>
      simp only [exec, execSetPayloadRaw, State.onFrame]
      split
      · split
        · exact .inl ⟨_, rfl, rfl⟩
        · exact .inr ⟨_, _, _, rfl, rfl⟩
      · exact .inl ⟨_, rfl, rfl⟩
  case setPayloadStruct p =>
    simp only [exec, execSetPayloadStruct]
    split
    · cases x with
      | empty => exact .inl ⟨_, rfl, rfl⟩
      | held f => exact .inr ⟨_, _, _, rfl, rfl⟩
    · exact .inl ⟨_, rfl, rfl⟩
  all_goals
    cases x with
    | empty => exact .inl ⟨_, rfl, rfl⟩
    | held f => exact .inr ⟨_, _, _, rfl, rfl⟩

theorem rawFits_iff (buf : Bytes) : rawFits buf = true ↔ buf.length ≤ 65535 := by simp [rawFits]

/-- The stored length of a payload that fits is its length (R126). -/
theorem payloadLength_toNat {P : Params} {p : Payload} (h : (encPayload P p).length ≤ pmax) :
    (payloadLength P p).toNat = (encPayload P p).length := by
  rw [payloadLength, BitVec.toNat_ofNat]
  exact Nat.mod_eq_of_lt (Nat.lt_succ_of_le h)

/-- A Fresh frame derived from a payload that can stand in the slot meets the invariants (R24). -/
theorem frameInv_freshFrame {P : Params} {q : Byte} {p : Payload} (ht : payloadTyped P p = true)
    (hr : ∀ id data, p = .raw id data → lookup P id = none) (hl : (encPayload P p).length ≤ pmax) :
    FrameInv P (freshFrame P q p) where
  typed := ht
  len := ⟨encPayload_length P p, hl⟩
  raw := hr
  fresh := fun _ => ⟨payloadLength_toNat hl, rfl, rfl⟩

end Sys2Proof.Machine
end

