-- ==== Sys2Proof/Laws/PerInstr.lean ====
section
/-! SUPPORT. A property of every operation, one lemma per constructor of `Instr`: the record `encode` writes decodes to the
operation. -/

namespace Sys2Proof.Laws.RoundTrip

/-- Decoding the record of an operation gives it back (R58, R59). -/
def Statement (i : Instr) : Prop := decode (encode i) = .ok i

theorem checksum8 (buf : Bytes) : Statement (.checksum8 buf) := rfl
theorem checksum16 (buf : Bytes) : Statement (.checksum16 buf) := rfl
theorem parseHeader (buf : Bytes) : Statement (.parseHeader buf) := rfl
theorem serializeHeader (dl : U16) (seq : Byte) : Statement (.serializeHeader dl seq) := rfl
theorem parsePayload (buf : Bytes) : Statement (.parsePayload buf) := rfl
theorem serializePayload (pay : Payload) : Statement (.serializePayload pay) := rfl
theorem parseFrame (buf : Bytes) : Statement (.parseFrame buf) := rfl
theorem recompute : Statement .recompute := rfl
theorem serializeFrame : Statement .serializeFrame := rfl
theorem newFrameStruct (seq : Byte) (pay : Payload) : Statement (.newFrameStruct seq pay) := rfl
theorem newFrameRaw (seq : Byte) (buf : Bytes) : Statement (.newFrameRaw seq buf) := rfl
theorem setSeq (seq : Byte) : Statement (.setSeq seq) := rfl
theorem setPayloadRaw (buf : Bytes) : Statement (.setPayloadRaw buf) := rfl
theorem setPayloadStruct (pay : Payload) : Statement (.setPayloadStruct pay) := rfl
theorem getSeq : Statement .getSeq := rfl
theorem getDataLength : Statement .getDataLength := rfl
theorem getHeaderChecksum : Statement .getHeaderChecksum := rfl
theorem getFrameTail : Statement .getFrameTail := rfl
theorem getCmdId : Statement .getCmdId := rfl
theorem getPayloadRaw : Statement .getPayloadRaw := rfl
theorem getPayloadStruct : Statement .getPayloadStruct := rfl
theorem dropFrame : Statement .dropFrame := rfl

end Sys2Proof.Laws.RoundTrip
end

