-- ==== Sys2Proof/Laws/Steps.lean ====
section
/-! SUPPORT. What a step does around an operation, and the laws of the registry's fixed layouts and of the cyclic redundancy
checks. -/

namespace Sys2Proof.Machine

/-- A step with an operation to perform (R20). -/
theorem step_of_decode {s t : State} {r : Request} {rs : List Request} {i : Instr} (hr : s.requests = r :: rs)
    (hd : decode r = .ok i) (he : exec i s = .next t) :
    step s = .next { t with requests := t.requests.tail } := by
  simp [step, State.pending, hr, hd, he, retire]

/-- Three things a step can do: stay idle, reject a record, perform an operation. -/
theorem step_cases (s : State) :
    (s.requests = [] ∧ step s = .next s) ∨
    (∃ r rs e, s.requests = r :: rs ∧ decode r = .error e ∧
      step s = .next { s.answer (failResponse (.refuse .illegal)) with requests := rs }) ∨
    ∃ r rs i, s.requests = r :: rs ∧ decode r = .ok i ∧ step s = retire (exec i s) := by
  cases hr : s.requests with
  | nil => exact .inl ⟨rfl, by simp [step, State.pending, hr, State.idle]⟩
  | cons r rs =>
    cases hd : decode r with
    | error e =>
      refine .inr (.inl ⟨r, rs, e, rfl, hd, ?_⟩)
      cases e
      simp [step, State.pending, hr, hd, State.rejectRequest, State.fail, retire]
    | ok i => exact .inr (.inr ⟨r, rs, i, rfl, hd, by simp [step, State.pending, hr, hd]⟩)

theorem layoutWidth_eq_sum (fs : List LayoutField) : layoutWidth fs = (fs.map LayoutField.width).sum := by
  induction fs with
  | nil => rfl
  | cons f fs ih => simp [layoutWidth, ih]

theorem leBytes_eq_map (k n : Nat) : leBytes k n = (List.range k).map fun j => BitVec.ofNat 8 (n / 256 ^ j) := by
  induction k generalizing n with
  | zero => rfl
  | succ k ih =>
    rw [leBytes, ih, List.range_succ_eq_map, List.map_cons, List.map_map, Nat.pow_zero, Nat.div_one]
    congr 1
    apply List.map_congr_left
    intro j _
    rw [Function.comp_apply, Nat.pow_succ', Nat.div_div_eq_div_mul]

/-- A round is injective when the top bit of the polynomial's constant is set: the top bit of the result tells which branch
was taken. -/
theorem crcBit_injective {w : Nat} (poly : BitVec (w + 1)) (hp : poly.getLsbD w = true) {c d : BitVec (w + 1)}
    (h : crcBit poly c = crcBit poly d) : c = d := by
  have top : ∀ x : BitVec (w + 1), (crcBit poly x).getLsbD w = x.getLsbD 0 := by
    intro x
    unfold crcBit
    split
    · next hx =>
      rw [BitVec.getLsbD_xor, BitVec.getLsbD_ushiftRight, hp, hx, BitVec.getLsbD_of_ge x (1 + w) (by omega)]
      rfl
    · next hx =>
      rw [BitVec.getLsbD_ushiftRight, BitVec.getLsbD_of_ge x (1 + w) (by omega)]
      simpa using hx
  have h0 : c.getLsbD 0 = d.getLsbD 0 := by rw [← top c, ← top d, h]
  have hs : c >>> 1 = d >>> 1 := by
    unfold crcBit at h
    rw [← h0] at h
    split at h
    · have := congrArg (· ^^^ poly) h
      simpa [BitVec.xor_assoc] using this
    · exact h
  apply BitVec.eq_of_getLsbD_eq
  intro i _
  cases i with
  | zero => exact h0
  | succ i =>
    have := congrArg (fun x => x.getLsbD i) hs
    simpa [BitVec.getLsbD_ushiftRight, Nat.add_comm] using this

theorem crcRounds_injective {w : Nat} (poly : BitVec (w + 1)) (hp : poly.getLsbD w = true) (n : Nat)
    {c d : BitVec (w + 1)} (h : crcRounds poly n c = crcRounds poly n d) : c = d := by
  induction n generalizing c d with
  | zero => exact h
  | succ n ih => exact crcBit_injective poly hp (ih h)

/-- A check whose constant has its top bit set tells two byte sequences apart that differ in one byte. -/
theorem crcReflected_ne {w : Nat} (poly : BitVec (w + 1)) (hp : poly.getLsbD w = true) (hw : 8 ≤ w + 1) (a b : Bytes)
    (x y : Byte) (hxy : x ≠ y) (c : BitVec (w + 1)) :
    crcReflected poly c (a ++ x :: b) ≠ crcReflected poly c (a ++ y :: b) := by
  have tail : ∀ (b : Bytes) {c d : BitVec (w + 1)}, c ≠ d → crcReflected poly c b ≠ crcReflected poly d b := by
    intro b
    induction b with
    | nil => exact fun h => h
    | cons z b ih =>
      intro c d h
      refine ih fun e => h ?_
      have := crcRounds_injective poly hp 8 e
      have := congrArg (· ^^^ z.setWidth (w + 1)) this
      simpa [BitVec.xor_assoc] using this
  induction a generalizing c with
  | nil =>
    refine tail b fun e => hxy ?_
    have h1 := crcRounds_injective poly hp 8 e
    have h2 := congrArg (c ^^^ ·) h1
    simp only [← BitVec.xor_assoc, BitVec.xor_self, BitVec.zero_xor] at h2
    have h3 := congrArg (BitVec.setWidth 8) h2
    simpa [BitVec.setWidth_setWidth_of_le, hw] using h3
  | cons z a ih => exact ih _

/-- Flipping a bit changes one byte. -/
theorem flipBit_parts (b : Bytes) (k : Nat) (h : k < 8 * b.length) :
    ∃ (a c : Bytes) (x y : Byte), a.length = k / 8 ∧ x ≠ y ∧ b = a ++ x :: c ∧ flipBit b k = a ++ y :: c := by
  have hk : k / 8 < b.length := by omega
  refine ⟨b.take (k / 8), b.drop (k / 8 + 1), b[k / 8], b[k / 8] ^^^ BitVec.ofNat 8 (2 ^ (k % 8)), ?_, ?_, ?_, ?_⟩
  · rw [List.length_take]; omega
  · intro e
    have h1 := congrArg (b[k / 8] ^^^ ·) e
    simp only [← BitVec.xor_assoc, BitVec.xor_self, BitVec.zero_xor] at h1
    have h2 : k % 8 < 8 := Nat.mod_lt _ (by omega)
    interval_cases k % 8 <;> revert h1 <;> decide
  · rw [← List.drop_eq_getElem_cons hk, List.take_append_drop]
  · rw [flipBit, List.modify_eq_take_cons_drop hk]

@[simp] theorem flipBit_length (b : Bytes) (k : Nat) : (flipBit b k).length = b.length := by simp [flipBit]

end Sys2Proof.Machine
end

