-- ==== Sys2Proof/Tests/Slice0.lean ====
section
/-! SUPPORT. Tests: the opcode words of spec/30_encoding.md R58, the vectors of spec/95_test_vectors.md under its profile GK
and its registry REG_T (each test names its vector: the expected bytes are the spec's), a refusal by each check of
`wellFormed`, and for every statement with hypotheses a witness that meets them. -/

namespace Sys2Proof.Tests

open Sys2Proof.Machine

-- One theorem at a time: the many kernel evaluations below would otherwise wait for one another in threads of their own.
set_option Elab.async false

/-! ### Helpers -/

/-- `REG_T` (spec/95_test_vectors.md section 0). -/
def regT : List RegistryRow :=
  [{ id := 0x0001, schema := .layout [{ name := "value", width := 2 }] },
   { id := 0x0002, schema := .layout [] },
   { id := 0x0003, schema := .layout [{ name := "a", width := 1 }, { name := "b", width := 2 }, { name := "c", width := 4 }] }]

/-- Profile GK (spec/93_implementation_defined.md GK1 to GK3) with `REG_T`. -/
def gk : Params := { sof := 0xA5, alg8 := .reflectedCrc 0x8C 0xFF, alg16 := .reflectedCrc 0x8408 0xFFFF, registry := regT }

/-- An instance with profile GK and this slot. -/
def gkState (x : Slot) : State := { slot := x, params := gk, requests := [], results := [] }

/-- `FR1` and `FR7` (spec/95_test_vectors.md section 0). -/
def fr1 : Bytes := [0xA5, 0x04, 0x00, 0x05, 0x62, 0x01, 0x00, 0x2A, 0x00, 0x74, 0x78]
def fr7 : Bytes := [0xA5, 0x05, 0x00, 0x07, 0x75, 0x34, 0x12, 0xDE, 0xAD, 0xBE, 0x89, 0xB5]

/-- The frames of V40, V41 and V45. -/
def v40 : Frame := { dl := 4, seq := 5, hc := 0x62, tail := 0x7874, payload := .struct 0x0001 [42], dirty := false }
def v41 : Frame := { dl := 5, seq := 7, hc := 0x75, tail := 0xB589, payload := .raw 0x1234 [0xDE, 0xAD, 0xBE], dirty := false }
def v45 : Frame := { dl := 2, seq := 0, hc := 0x8C, tail := 0xF41B, payload := .struct 0x0002 [], dirty := false }

/-- V40, then SET_SEQ 9: Dirty. -/
def v40Dirty : Frame := { v40 with seq := 9, dirty := true }

/-- The state after V40 and the other slots the tests start from. -/
def s40 : State := gkState (.held v40)
def s41 : State := gkState (.held v41)
def s40Dirty : State := gkState (.held v40Dirty)
def s0 : State := gkState .empty

def isNext : StepOutcome → Bool
  | .next _ => true
  | .fault _ => false
  | .refused _ => false

/-- The state an operation leaves, and its result. -/
def after (i : Instr) (s : State) : State := stateAfter s (exec i s)
def result (i : Instr) (s : State) : Option Response := (after i s).results.head?

/-- The answers a test expects. -/
def okBytes (b : Bytes) : Option Response := some (okResponse (some b) none)
def okVal (v : ResultValue) : Option Response := some (okResponse none (some v))
def okDone : Option Response := some (okResponse none none)
def err (k : ErrKind) (g : Stage) : Option Response := some (failResponse (.raise k g))
def refused (x : RefuseKind) : Option Response := some (failResponse (.refuse x))

theorem next_after {i : Instr} {s : State} (h : isNext (exec i s) = true) : exec i s = .next (after i s) := by
  unfold after
  cases he : exec i s with
  | next t => rfl
  | fault r => rw [he] at h; cases h
  | refused r => rw [he] at h; cases h

/-- `FrameInv` as a check on data. -/
def sound (P : Params) (f : Frame) : Bool :=
  payloadTyped P f.payload && decide (2 ≤ (encPayload P f.payload).length) &&
  decide ((encPayload P f.payload).length ≤ pmax) &&
  (match f.payload with
    | .raw id _ => (lookup P id).isNone
    | .struct _ _ => true) &&
  (f.dirty || decide (f.dl.toNat = (encPayload P f.payload).length ∧
    f.hc = c8 P ([P.sof] ++ le16 f.dl ++ [f.seq]) ∧
    f.tail = c16 P ([P.sof] ++ le16 f.dl ++ [f.seq] ++ [f.hc] ++ encPayload P f.payload)))

theorem inv_of_sound {s : State} {f : Frame} (hs : s.slot = .held f) (h : sound s.params f = true) : s.Inv := by
  intro g hg
  rw [hs] at hg
  cases hg
  simp only [sound, Bool.and_eq_true, Bool.or_eq_true, decide_eq_true_eq] at h
  obtain ⟨⟨⟨⟨h1, h2⟩, h3⟩, h4⟩, h5⟩ := h
  refine ⟨h1, ⟨h2, h3⟩, ?_, fun hd => ?_⟩
  · intro id data hp
    rw [hp] at h4
    simpa using h4
  · rw [hd] at h5
    simpa using h5

theorem rawFits_replicate (n : Nat) (x : Byte) : rawFits (List.replicate n x) = decide (n ≤ 65535) := by
  rw [rawFits, List.length_replicate]

/-! ### `wellFormed` refuses -/

theorem test_wf_unregistered_struct : wellFormed gk (.serializePayload (.struct 0x1234 [])) = false := by decide
theorem test_wf_value_out_of_range : wellFormed gk (.newFrameStruct 0 (.struct 0x0001 [65536])) = false := by decide
theorem test_wf_value_of_wrong_shape : wellFormed gk (.setPayloadStruct (.struct 0x0001 [1, 2])) = false := by decide
theorem test_wf_raw_where_struct_required :
    wellFormed gk (.newFrameStruct 0 (.raw 0x1234 [])) = false ∧ wellFormed gk (.setPayloadStruct (.raw 0x1234 [])) = false := by
  decide
theorem test_wf_raw_too_long :
    wellFormed gk (.newFrameRaw 0 (List.replicate 65536 0)) = false ∧
    wellFormed gk (.setPayloadRaw (List.replicate 65536 0)) = false :=
  ⟨rawFits_replicate 65536 0, rawFits_replicate 65536 0⟩
theorem test_wf_layouts :
    schemaOf (.layout [{ name := "z", width := 0 }]) = none ∧ schemaOf (.layout [{ name := "w", width := 65534 }]) = none :=
  ⟨rfl, rfl⟩
theorem test_wf_accepts :
    wellFormed gk (.newFrameStruct 5 (.struct 0x0003 [0xFF, 0xFFFF, 0xFFFFFFFF])) = true ∧
    wellFormed gk (.serializePayload (.raw 0x0001 [0x2A])) = true := by decide

/-! ### Decoding: every row's word, written out from R58 -/

theorem test_words_checksum_header_payload :
    decodeTableWord 8 0b00000001 = some (.checksum8 []) ∧ decodeTableWord 8 0b00000010 = some (.checksum16 []) ∧
    decodeTableWord 8 0b00010000 = some (.parseHeader []) ∧ decodeTableWord 8 0b00010001 = some (.serializeHeader 0 0) ∧
    decodeTableWord 8 0b00100000 = some (.parsePayload []) ∧
    decodeTableWord 8 0b00100001 = some (.serializePayload (.raw 0 [])) := by decide
theorem test_words_frame :
    decodeTableWord 8 0b00110000 = some (.parseFrame []) ∧ decodeTableWord 8 0b00110001 = some .recompute ∧
    decodeTableWord 8 0b00110010 = some .serializeFrame ∧
    decodeTableWord 8 0b01000000 = some (.newFrameStruct 0 (.raw 0 [])) ∧
    decodeTableWord 8 0b01000001 = some (.newFrameRaw 0 []) := by decide
theorem test_words_set :
    decodeTableWord 8 0b01010000 = some (.setSeq 0) ∧ decodeTableWord 8 0b01010001 = some (.setPayloadRaw []) ∧
    decodeTableWord 8 0b01010010 = some (.setPayloadStruct (.raw 0 [])) := by decide
theorem test_words_get_drop :
    decodeTableWord 8 0b01100000 = some .getSeq ∧ decodeTableWord 8 0b01100001 = some .getDataLength ∧
    decodeTableWord 8 0b01100010 = some .getHeaderChecksum ∧ decodeTableWord 8 0b01100011 = some .getFrameTail ∧
    decodeTableWord 8 0b01100100 = some .getCmdId ∧ decodeTableWord 8 0b01100101 = some .getPayloadRaw ∧
    decodeTableWord 8 0b01100110 = some .getPayloadStruct ∧ decodeTableWord 8 0b01110000 = some .dropFrame := by decide
/-- V99. -/
theorem test_words_illegal :
    ([0x00, 0x03, 0x12, 0x33, 0x42, 0x53, 0x67, 0x71, 0xFF].map (decodeTableWord 8)).all Option.isNone = true := by decide
/-- A full record (program P1, row 1): `40 | A_SEQ=05 | A_PAY=Struct(0001,(42))`; the unnamed operands are ignored. -/
theorem test_record_operands :
    decode { op := 0x40, aBuf := [1, 2], aSeq := 5, aDl := 9, aPay := .struct 0x0001 [42] } =
      .ok (.newFrameStruct 5 (.struct 0x0001 [42])) := rfl

/-! ### The vectors, by operation -/

/-- V2, V4, V6, V8. -/
theorem test_checksum8 :
    ([[], [0x00], [0xA5, 0x04, 0x00, 0x05], [0x31, 0x32, 0x33, 0x34, 0x35, 0x36, 0x37, 0x38, 0x39]].map
      fun b => result (.checksum8 b) s0) =
    [okVal (.u8 0xFF), okVal (.u8 0x35), okVal (.u8 0x62), okVal (.u8 0x0B)] := by decide +kernel
/-- V3, V5, V7, V9. -/
theorem test_checksum16 :
    ([[], [0x00], fr1.take 9, [0x31, 0x32, 0x33, 0x34, 0x35, 0x36, 0x37, 0x38, 0x39]].map
      fun b => result (.checksum16 b) s0) =
    [okVal (.u16 0xFFFF), okVal (.u16 0x0F87), okVal (.u16 0x7874), okVal (.u16 0x6F91)] := by decide +kernel
/-- V15, V16, V17, V18, V19. -/
theorem test_parseHeader :
    ([[0xA5, 0x04, 0x00, 0x05, 0x62], [], [0xA5, 0x04, 0x00, 0x05], [0xA5, 0x04, 0x00, 0x05, 0x62, 0xFF, 0xFF],
      [0xA5, 0x02, 0x01, 0x03, 0xAA]].map fun b => result (.parseHeader b) s0) =
    [okVal (.header ⟨4, 5, 0x62⟩), err .tooShort .hdr, err .tooShort .hdr, okVal (.header ⟨4, 5, 0x62⟩),
      okVal (.header ⟨258, 3, 0xAA⟩)] := by decide +kernel
/-- V20 to V26. -/
theorem test_parseHeader_errors :
    ([[0xA4, 0x04, 0x00, 0x05, 0x62], [0xA5, 0x05, 0x00, 0x05, 0x62], [0xA5, 0x04, 0x80, 0x05, 0x62],
      [0xA5, 0x04, 0x00, 0x01, 0x62], [0xA5, 0x04, 0x00, 0x05, 0x63], [0xA4, 0x04, 0x00],
      [0xA4, 0x04, 0x00, 0x05, 0x00]].map fun b => result (.parseHeader b) s0) =
    [err .badStartMarker .hdr, err .crc8Mismatch .hdr, err .crc8Mismatch .hdr, err .crc8Mismatch .hdr,
      err .crc8Mismatch .hdr, err .tooShort .hdr, err .badStartMarker .hdr] := by decide +kernel
/-- V10 to V14. -/
theorem test_serializeHeader :
    ([(4, 5), (0, 0), (65535, 255), (258, 3), (2, 0)].map
      fun (q : U16 × Byte) => result (.serializeHeader q.1 q.2) s0) =
    [okBytes [0xA5, 0x04, 0x00, 0x05, 0x62], okBytes [0xA5, 0x00, 0x00, 0x00, 0xC3], okBytes [0xA5, 0xFF, 0xFF, 0xFF, 0xA5],
      okBytes [0xA5, 0x02, 0x01, 0x03, 0xAA], okBytes [0xA5, 0x02, 0x00, 0x00, 0x8C]] := by decide +kernel
/-- V30, V31, V36, V37, V39, V39b. -/
theorem test_parsePayload :
    ([[0x01, 0x00, 0x2A, 0x00], [0x34, 0x12, 0xDE, 0xAD, 0xBE], [0xFF, 0xFF], [0x02, 0x00],
      [0x03, 0x00, 0x11, 0x33, 0x22, 0x77, 0x66, 0x55, 0x44], [0x00, 0x01, 0xAA]].map fun b => result (.parsePayload b) s0) =
    [okVal (.payload (.struct 0x0001 [42])), okVal (.payload (.raw 0x1234 [0xDE, 0xAD, 0xBE])),
      okVal (.payload (.raw 0xFFFF [])), okVal (.payload (.struct 0x0002 [])),
      okVal (.payload (.struct 0x0003 [0x11, 0x2233, 0x44556677])), okVal (.payload (.raw 0x0100 [0xAA]))] := by
  decide +kernel
/-- V32 to V35, V38, V39a. -/
theorem test_parsePayload_errors :
    ([[0x01, 0x00, 0x2A], [0x01, 0x00, 0x2A, 0x00, 0x00], [0x01], [], [0x01, 0x00], [0x02, 0x00, 0x77]].map
      fun b => result (.parsePayload b) s0) =
    [err .schemaLengthMismatch .pay, err .schemaLengthMismatch .pay, err .tooShort .pay, err .tooShort .pay,
      err .schemaLengthMismatch .pay, err .schemaLengthMismatch .pay] := by decide +kernel
/-- V30s, V30t, V31s, V36s, V37s, V39s, V39c, V39d. -/
theorem test_serializePayload :
    ([.struct 0x0001 [42], .struct 0x0001 [0xFFFF], .raw 0x1234 [0xDE, 0xAD, 0xBE], .raw 0xFFFF [], .struct 0x0002 [],
      .struct 0x0003 [0x11, 0x2233, 0x44556677], .raw 0x0001 [0x2A], .struct 0x1234 [0]].map
      fun p => result (.serializePayload p) s0) =
    [okBytes [0x01, 0x00, 0x2A, 0x00], okBytes [0x01, 0x00, 0xFF, 0xFF], okBytes [0x34, 0x12, 0xDE, 0xAD, 0xBE],
      okBytes [0xFF, 0xFF], okBytes [0x02, 0x00], okBytes [0x03, 0x00, 0x11, 0x33, 0x22, 0x77, 0x66, 0x55, 0x44],
      okBytes [0x01, 0x00, 0x2A], refused .illegal] := by decide +kernel
/-- V40, V41, V44a, V45, V49a. -/
theorem test_parseFrame :
    ([fr1, fr7, [0xA5, 0x02, 0x00, 0xFF, 0xB9, 0xFF, 0xFF, 0xD2, 0x4D], [0xA5, 0x02, 0x00, 0x00, 0x8C, 0x02, 0x00, 0x1B, 0xF4],
      [0xA5, 0x09, 0x00, 0x01, 0x13, 0x03, 0x00, 0x11, 0x33, 0x22, 0x77, 0x66, 0x55, 0x44, 0xF8, 0x15]].map
      fun b => (after (.parseFrame b) s0).slot) =
    [.held v40, .held v41, .held ⟨2, 0xFF, 0xB9, 0x4DD2, .raw 0xFFFF [], false⟩, .held v45,
      .held ⟨9, 1, 0x13, 0x15F8, .struct 0x0003 [0x11, 0x2233, 0x44556677], false⟩] := by decide +kernel
/-- V42, V43, V46, V47, V48, V49, V49b, V49c, V49e; V62 to V67. -/
theorem test_parseFrame_errors :
    ([fr1.take 10, fr1 ++ [0x00], [0xA5, 0x02, 0x00, 0x00, 0x8C, 0x01, 0x00, 0x73, 0xDE],
      [0xA5, 0x00, 0x00, 0x00, 0xC3, 0x8F, 0x08], [0xA5, 0x01, 0x00, 0x00, 0x68, 0x01, 0x6D, 0x2D],
      [0xA5, 0x05, 0x00, 0x01, 0xA8, 0x01, 0x00, 0x2A, 0x00, 0x00, 0x2D, 0x39], fr1.take 5, fr1.take 3, fr1 ++ fr1,
      [0xA4, 0x04, 0x00], 0xA4 :: fr1.drop 1, flipBit fr1 72 ++ [0x00],
      [0xA5, 0x05, 0x00, 0x01, 0xA8, 0x01, 0x00, 0x2A, 0x00, 0x00, 0x2D, 0xB9], [0xA5, 0x00, 0x00, 0x00, 0xC3, 0x8F, 0x09],
      [0xA5, 0x04, 0x00, 0x05, 0x63, 0x01, 0x00]].map fun b => result (.parseFrame b) s41) =
    [err .tooShort .frm, err .trailingBytes .frm, err .schemaLengthMismatch .pay, err .tooShort .pay, err .tooShort .pay,
      err .schemaLengthMismatch .pay, err .tooShort .frm, err .tooShort .hdr, err .trailingBytes .frm, err .tooShort .hdr,
      err .badStartMarker .hdr, err .trailingBytes .frm, err .crc16Mismatch .frm, err .crc16Mismatch .frm,
      err .crc8Mismatch .hdr] := by decide +kernel
/-- V50 to V61: the bits of `FR1` flipped are (0,7), (1,0), (1,1), (2,0), (3,0), (4,3), (5,0), (5,1), (7,0), (8,7), (9,0),
(10,7). -/
theorem test_parseFrame_flips :
    ([7, 8, 9, 16, 24, 35, 40, 41, 56, 71, 72, 87].map fun k => result (.parseFrame (flipBit fr1 k)) s40) =
    [err .badStartMarker .hdr, err .crc8Mismatch .hdr, err .crc8Mismatch .hdr, err .crc8Mismatch .hdr, err .crc8Mismatch .hdr,
      err .crc8Mismatch .hdr, err .crc16Mismatch .frm, err .crc16Mismatch .frm, err .crc16Mismatch .frm,
      err .crc16Mismatch .frm, err .crc16Mismatch .frm, err .crc16Mismatch .frm] := by decide +kernel
/-- V71, V75. -/
theorem test_recompute :
    (after .recompute s40Dirty).slot = .held ⟨4, 9, 0xC1, 0xBE88, .struct 0x0001 [42], false⟩ ∧
    result .recompute s0 = refused .noFrame := by decide +kernel
/-- V70, V73, V74, V76, V77. -/
theorem test_serializeFrame :
    ([s40, s40Dirty, gkState (.held { v40 with payload := .raw 0x1234 [0xDE, 0xAD, 0xBE], dirty := true }), s0, s41].map
      (result .serializeFrame)) =
    [okBytes fr1, okBytes [0xA5, 0x04, 0x00, 0x09, 0xC1, 0x01, 0x00, 0x2A, 0x00, 0x88, 0xBE],
      okBytes [0xA5, 0x05, 0x00, 0x05, 0xC9, 0x34, 0x12, 0xDE, 0xAD, 0xBE, 0xB4, 0x71], refused .noFrame, okBytes fr7] := by
  decide +kernel
/-- V78; V74's slot afterwards. -/
theorem test_serializeFrame_slot :
    result .serializeFrame (gkState (.held v45)) = okBytes [0xA5, 0x02, 0x00, 0x00, 0x8C, 0x02, 0x00, 0x1B, 0xF4] ∧
    (after .serializeFrame (gkState (.held { v40 with payload := .raw 0x1234 [0xDE, 0xAD, 0xBE], dirty := true }))).slot =
      .held ⟨5, 5, 0xC9, 0x71B4, .raw 0x1234 [0xDE, 0xAD, 0xBE], false⟩ := by decide +kernel
/-- V80, V87; V88's frame. -/
theorem test_newFrameStruct :
    (after (.newFrameStruct 5 (.struct 0x0001 [42])) s0).slot = .held v40 ∧
    result (.newFrameStruct 5 (.struct 0x1234 [0])) s40 = refused .illegal ∧
    (after (.newFrameStruct 0x80 (.struct 0x0001 [0xFFFF])) s40).slot =
      .held ⟨4, 0x80, 0xD1, 0x04E2, .struct 0x0001 [0xFFFF], false⟩ := by decide +kernel
/-- V81 to V84. -/
theorem test_newFrameRaw :
    (after (.newFrameRaw 7 [0x34, 0x12, 0xDE, 0xAD, 0xBE]) s0).slot = .held v41 ∧
    (after (.newFrameRaw 5 [0x01, 0x00, 0x2A, 0x00]) s0).slot = .held v40 ∧
    result (.newFrameRaw 5 [0x01, 0x00, 0x2A]) s0 = err .schemaLengthMismatch .pay ∧
    result (.newFrameRaw 5 [0x01]) s0 = err .tooShort .pay := by decide +kernel
/-- V85. -/
theorem test_newFrameRaw_too_long : result (.newFrameRaw 0 (List.replicate 65536 0)) s0 = refused .tooLong := by
  have h : execNewFrameRaw 0 (List.replicate 65536 0) s0 = s0.fail (.refuse .tooLong) := by
    rw [execNewFrameRaw, rawFits_replicate]; rfl
  rw [result, after, exec, h]; rfl
/-- V89; P2 row 2; V96. -/
theorem test_setSeq :
    (after (.setSeq 5) s40).slot = .held { v40 with dirty := true } ∧ (after (.setSeq 9) s40).slot = .held v40Dirty ∧
    result (.setSeq 1) s0 = refused .noFrame := by decide +kernel
/-- V74's setter, V91, P4 row 4, V96. -/
theorem test_setPayloadRaw :
    (after (.setPayloadRaw [0x34, 0x12, 0xDE, 0xAD, 0xBE]) s40).slot =
      .held { v40 with payload := .raw 0x1234 [0xDE, 0xAD, 0xBE], dirty := true } ∧
    (after (.setPayloadRaw [0x01, 0x00, 0x2A]) s40).slot = .held v40 ∧
    result (.setPayloadRaw [0x01, 0x00, 0x2A]) s40 = err .schemaLengthMismatch .pay ∧
    result (.setPayloadRaw [0x01]) s40 = err .tooShort .pay ∧
    result (.setPayloadRaw [0x34, 0x12]) s0 = refused .noFrame := by decide +kernel
/-- P3 row 5; V96. -/
theorem test_setPayloadStruct :
    (after (.setPayloadStruct (.struct 0x0002 [])) s41).slot = .held { v41 with payload := .struct 0x0002 [], dirty := true } ∧
    result (.setPayloadStruct (.struct 0x0002 [])) s0 = refused .noFrame := by decide +kernel
/-- V92, V93. -/
theorem test_getters :
    ([.getSeq, .getDataLength, .getHeaderChecksum, .getFrameTail, .getCmdId, .getPayloadRaw, .getPayloadStruct].map
      fun i => result i s40) =
    [okVal (.u8 5), okVal (.u16 4), okVal (.u8 0x62), okVal (.u16 0x7874), okVal (.u16 0x0001),
      okBytes [0x01, 0x00, 0x2A, 0x00], okVal (.payload (.struct 0x0001 [42]))] := by decide +kernel
/-- V94; P2 rows 3 to 6 (stale fields are returned). -/
theorem test_getters_raw_and_stale :
    ([.getCmdId, .getPayloadRaw, .getPayloadStruct].map fun i => result i s41) =
    [okVal (.u16 0x1234), okBytes [0x34, 0x12, 0xDE, 0xAD, 0xBE], okVal (.payload (.raw 0x1234 [0xDE, 0xAD, 0xBE]))] ∧
    ([.getSeq, .getDataLength, .getHeaderChecksum, .getFrameTail].map fun i => result i s40Dirty) =
    [okVal (.u8 9), okVal (.u16 4), okVal (.u8 0x62), okVal (.u16 0x7874)] := by decide +kernel
/-- V97, V98. -/
theorem test_dropFrame :
    (after .dropFrame s40).slot = .empty ∧ result .dropFrame s40 = okDone ∧ (after .dropFrame s0).slot = .empty := by
  decide +kernel

/-! ### One step -/

/-- A state in which the host issues these records. -/
def issuing (x : Slot) (rs : List Request) : State := { gkState x with requests := rs }

/-- GET_SEQ, then what follows: the step performs the first record and keeps the rest. -/
theorem test_step :
    stateAfter s40 (step (issuing (.held v40) [encode .getSeq, encode .dropFrame])) =
      { issuing (.held v40) [encode .dropFrame] with results := [okResponse none (some (.u8 5))] } := by decide +kernel
/-- V99, by the step; the host's next record stands. -/
theorem test_step_illegal :
    stateAfter s40 (step (issuing (.held v40) [bareRequest 0x33, encode .getSeq])) =
      { issuing (.held v40) [encode .getSeq] with results := [failResponse (.refuse .illegal)] } := by decide +kernel
/-- The host's fixed name: the very next step runs the operation of the table word. -/
theorem test_withFetchWord :
    (stateAfter State.reset (step (State.reset.withFetchWord 8 0x70))).results = [okResponse none none] ∧
    (stateAfter State.reset (step (State.reset.withFetchWord 8 0x60))).results = [failResponse (.refuse .noFrame)] := ⟨rfl, rfl⟩

/-! ### Witnesses: for each statement with hypotheses, states and operands that meet them all, at the ends of their ranges -/

/-- The operation ends in a next state, with this result. -/
abbrev Runs (i : Instr) (s : State) (r : Option Response) : Prop :=
  exec i s = .next (after i s) ∧ (after i s).results.head? = r

theorem runs_of {i : Instr} {s : State} {r : Option Response} (h : (isNext (exec i s) && result i s == r) = true) :
    Runs i s r := by
  simp only [Bool.and_eq_true, beq_iff_eq] at h
  exact ⟨next_after h.1, h.2⟩

theorem inv_s40 : s40.Inv := inv_of_sound rfl (by decide +kernel)
theorem inv_s41 : s41.Inv := inv_of_sound rfl (by decide +kernel)
theorem inv_s40Dirty : s40Dirty.Inv := inv_of_sound rfl (by decide +kernel)

/-- The named premises of R83 hold of profile GK (spec/93_implementation_defined.md GK5). -/
theorem gk_c8Detects1Bit : C8Detects1Bit gk := by
  intro x _ k hk
  obtain ⟨a, c, u, v, _, hne, hx, hf⟩ := flipBit_parts x k hk
  rw [hf, hx]
  exact crcReflected_ne (w := 7) 0x8C (by decide) (by omega) a c u v hne 0xFF
theorem gk_c16Detects1Bit : C16Detects1Bit gk := by
  intro x _ _ k hk
  obtain ⟨a, c, u, v, _, hne, hx, hf⟩ := flipBit_parts x k hk
  rw [hf, hx]
  exact crcReflected_ne (w := 15) 0x8408 (by decide) (by omega) a c u v hne 0xFFFF

/-- `REG_T`'s lookups: found with `W = 2`, found with `W = 0`, not found; values in and out of range. -/
theorem lookup_T1 : ∃ S, lookup gk 0x0001 = some S ∧ S.width = 2 ∧ S.isVal [0] = true ∧ S.isVal [42] = true ∧
    S.isVal [65535] = true ∧ S.isVal [65536] = false := ⟨_, rfl, rfl, rfl, rfl, rfl, rfl⟩
theorem lookup_T0 : ∃ S, lookup gk 0x0002 = some S ∧ S.width = 0 ∧ S.isVal [] = true := ⟨_, rfl, rfl, rfl⟩
theorem lookup_unregistered : lookup gk 0x1234 = none ∧ lookup gk 0xFFFF = none ∧ lookup gk 0x0000 = none := ⟨rfl, rfl, rfl⟩

/-- The longest payload a frame can hold, and its frame, Dirty. -/
def longest : Bytes := List.replicate 65533 0
theorem longest_length : longest.length = 65533 := List.length_replicate ..
def sLongest : State := gkState (.held { v40 with payload := .raw 0x1234 longest, dirty := true })
theorem inv_sLongest : sLongest.Inv := by
  intro f hf
  cases hf
  have h : (encPayload sLongest.params (.raw 0x1234 longest)).length = 65535 := by
    rw [encPayload, List.length_append, longest_length]; rfl
  refine ⟨rfl, ⟨?_, ?_⟩, ?_, ?_⟩
  · show 2 ≤ (encPayload sLongest.params (.raw 0x1234 longest)).length
    rw [h]; omega
  · show (encPayload sLongest.params (.raw 0x1234 longest)).length ≤ 65535
    rw [h]
  · intro id data hp
    cases hp; rfl
  · intro hd
    cases hd

theorem witness_Checksum8Result : (bareRequest 0x01).op = 0x01 ∧ s40.params.alg8 = s0.params.alg8 := ⟨rfl, rfl⟩
theorem witness_Checksum16Result : (bareRequest 0x02).op = 0x02 ∧ s40.params.alg16 = s0.params.alg16 := ⟨rfl, rfl⟩
theorem witness_SerializeHeaderResult : (bareRequest 0x11).op = 0x11 := rfl
theorem witness_ParseHeaderOutcomes :
    ([] : Bytes).length < 5 ∧ (fr1.take 4).length < 5 ∧ (0xA4 : Byte) ≠ s40.params.sof ∧
    ((0xA5 : Byte) = s40.params.sof ∧ c8 s40.params [0xA5, 0x04, 0x00, 0x05] ≠ 0x63) ∧
    ((0xA5 : Byte) = s40.params.sof ∧ c8 s40.params [0xA5, 0x04, 0x00, 0x05] = 0x62) := by decide +kernel
theorem witness_HeaderRoundTrip :
    (Runs (.serializeHeader 4 5) s0 (okBytes (fr1.take 5)) ∧ s41.params = s0.params) ∧
    Runs (.parseHeader (fr1.take 7)) s0 (okVal (.header ⟨4, 5, 0x62⟩)) :=
  ⟨⟨runs_of (by decide +kernel), rfl⟩, runs_of (by decide +kernel)⟩
/-- `k` at the ends of each range: 0 and 7, 8 and 31, 32 and 39. -/
theorem witness_HeaderBitFlip :
    (fr1.take 5).length = 5 ∧ Runs (.parseHeader (fr1.take 5)) s40 (okVal (.header ⟨4, 5, 0x62⟩)) ∧
    C8Detects1Bit s40.params ∧ 0 < 8 ∧ 7 < 8 ∧ (8 ≤ 8 ∧ 8 < 32) ∧ (8 ≤ 31 ∧ 31 < 32) ∧ (32 ≤ 32 ∧ 32 < 40) ∧ 32 ≤ 39 ∧ 39 < 40 :=
  ⟨rfl, runs_of (by decide +kernel), gk_c8Detects1Bit, by decide⟩
theorem witness_PayloadSerializedForm : ∃ S, lookup gk 0x0001 = some S ∧ S.isVal [42] = true := ⟨_, rfl, rfl⟩
theorem witness_LookupExactMatch :
    regT.filter (fun r => r.id = 0x0001) = regT.reverse.filter (fun r => r.id = 0x0001) ∧ (∀ r ∈ regT, r.id ≠ 0x1234) ∧
    (⟨0x0002, .layout []⟩ : RegistryRow) ∈ regT ∧ ∀ q ∈ regT, q.id = 0x0002 → q = ⟨0x0002, .layout []⟩ := by decide
/-- No field, and one field of the greatest width; a field of width 0; a width one too great. -/
theorem witness_FixedLayoutSchema :
    ((∀ f ∈ ([] : List LayoutField), 1 ≤ f.width) ∧ (([] : List LayoutField).map LayoutField.width).sum ≤ 65533) ∧
    ((∀ f ∈ [LayoutField.mk "w" 65533], 1 ≤ f.width) ∧ ([LayoutField.mk "w" 65533].map LayoutField.width).sum ≤ 65533) ∧
    (∃ f ∈ [LayoutField.mk "z" 0, LayoutField.mk "a" 1], f.width = 0) ∧
    65533 < ([LayoutField.mk "w" 65533, LayoutField.mk "a" 1].map LayoutField.width).sum := by decide
/-- Lengths 0 and 1; under `W = 2`, 1 and 3 field bytes, then 2; an unregistered id. -/
theorem witness_ParsePayloadOutcomes :
    ([] : Bytes).length < 2 ∧ ([0x01] : Bytes).length < 2 ∧
    (∃ S, lookup s40.params (assemble16 0x01 0x00) = some S ∧ ([0x2A] : Bytes).length ≠ S.width ∧
      ([0x2A, 0x00, 0x00] : Bytes).length ≠ S.width ∧ ([0x2A, 0x00] : Bytes).length = S.width) ∧
    lookup s40.params (assemble16 0x34 0x12) = none :=
  ⟨by decide, by decide, ⟨_, rfl, by decide, by decide, rfl⟩, rfl⟩
theorem witness_SerializePayloadOutcomes :
    (∃ S, lookup s40.params 0x0001 = some S ∧ S.isVal [65535] = true) ∧
    payloadTyped s40.params (.struct 0x0001 [65536]) = false ∧ payloadTyped s40.params (.struct 0x1234 []) = false :=
  ⟨⟨_, rfl, rfl⟩, rfl, rfl⟩
theorem witness_PayloadRoundTrip :
    (payloadTyped s40.params (.struct 0x0001 [42]) = true ∧
      ∀ id data, Payload.struct 0x0001 [42] = .raw id data → lookup s40.params id = none) ∧
    (payloadTyped s40.params (.raw 0x1234 []) = true ∧
      ∀ id data, Payload.raw 0x1234 [] = .raw id data → lookup s40.params id = none) ∧
    Runs (.parsePayload [0x01, 0x00, 0x2A, 0x00]) s40 (okVal (.payload (.struct 0x0001 [42]))) :=
  ⟨⟨rfl, fun _ _ h => by cases h⟩, ⟨rfl, fun _ _ h => by cases h; rfl⟩, runs_of (by decide +kernel)⟩
theorem witness_EmptyPayloadBoundary :
    lookup s40.params (assemble16 0xFF 0xFF) = none ∧
    (∃ S, lookup s40.params (assemble16 0x02 0x00) = some S ∧ S.width = 0) ∧
    ∃ S, lookup s40.params (assemble16 0x01 0x00) = some S ∧ 0 < S.width := ⟨rfl, ⟨_, rfl, rfl⟩, ⟨_, rfl, by decide⟩⟩
/-- The clauses in order, each at a boundary: 4 bytes; V63; V67; V42; V43; V60; V48; V46. -/
theorem witness_ParseFrameErrors :
    ((fr1.take 4).length < 5 ∧ (0xA4 : Byte) ≠ s40.params.sof ∧ (0xA5 : Byte) = s40.params.sof ∧
    c8 s40.params [0xA5, 0x04, 0x00, 0x05] ≠ 0x63 ∧ c8 s40.params [0xA5, 0x04, 0x00, 0x05] = 0x62 ∧
    ((fr1.take 10).drop 5).length < ((0x04 : Byte).toNat + 256 * (0x00 : Byte).toNat) + 2 ∧
    ((0x04 : Byte).toNat + 256 * (0x00 : Byte).toNat) + 2 < ((fr1 ++ [0x00]).drop 5).length ∧
    (([0x01, 0x00, 0x2A, 0x00] : Bytes).length = (0x04 : Byte).toNat + 256 * (0x00 : Byte).toNat ∧
      c16 s40.params ([0xA5, 0x04, 0x00, 0x05, 0x62] ++ [0x01, 0x00, 0x2A, 0x00]) ≠ assemble16 0x75 0x78) ∧
    (c8 s40.params [0xA5, 0x01, 0x00, 0x00] = 0x68 ∧
      ([0x01] : Bytes).length = (0x01 : Byte).toNat + 256 * (0x00 : Byte).toNat ∧
      c16 s40.params ([0xA5, 0x01, 0x00, 0x00, 0x68] ++ [0x01]) = assemble16 0x6D 0x2D ∧ ([0x01] : Bytes).length < 2) ∧
    (c8 s40.params [0xA5, 0x02, 0x00, 0x00] = 0x8C ∧
      ([0x01, 0x00] : Bytes).length = (0x02 : Byte).toNat + 256 * (0x00 : Byte).toNat ∧
      c16 s40.params ([0xA5, 0x02, 0x00, 0x00, 0x8C] ++ [0x01, 0x00]) = assemble16 0x73 0xDE)) ∧
    ∃ S, lookup s40.params (assemble16 0x01 0x00) = some S ∧ ([] : Bytes).length ≠ S.width :=
  ⟨by decide +kernel, _, rfl, by decide⟩
/-- V40 and V41. -/
theorem witness_ParseFrameLoads :
    ((c8 s40.params [s40.params.sof, 0x04, 0x00, 0x05] = 0x62 ∧
      ([0x01, 0x00, 0x2A, 0x00] : Bytes).length = (0x04 : Byte).toNat + 256 * (0x00 : Byte).toNat ∧
      c16 s40.params ([s40.params.sof, 0x04, 0x00, 0x05, 0x62] ++ [0x01, 0x00, 0x2A, 0x00]) = assemble16 0x74 0x78) ∧
    (c8 s40.params [s40.params.sof, 0x05, 0x00, 0x07] = 0x75 ∧
      ([0x34, 0x12, 0xDE, 0xAD, 0xBE] : Bytes).length = (0x05 : Byte).toNat + 256 * (0x00 : Byte).toNat ∧
      c16 s40.params ([s40.params.sof, 0x05, 0x00, 0x07, 0x75] ++ [0x34, 0x12, 0xDE, 0xAD, 0xBE]) =
        assemble16 0x89 0xB5)) ∧
    (∃ S, lookup s40.params (assemble16 0x01 0x00) = some S ∧ ([0x2A, 0x00] : Bytes).length = S.width) ∧
    lookup s40.params (assemble16 0x34 0x12) = none :=
  ⟨by decide +kernel, ⟨_, rfl, rfl⟩, rfl⟩
theorem witness_RecomputeResult : s40Dirty.slot = .held v40Dirty := rfl
theorem witness_SerializeFrameResult : s40Dirty.slot = .held v40Dirty ∧ s41.slot = .held v41 := ⟨rfl, rfl⟩
/-- The shortest and the longest payload. -/
theorem witness_FrameLengths :
    ((gkState (.held v45)).Inv ∧ (gkState (.held v45)).slot = .held v45) ∧
    (sLongest.Inv ∧ ∃ f, sLongest.slot = .held f ∧ (encPayload sLongest.params f.payload).length = 65535) := by
  refine ⟨⟨inv_of_sound rfl (by decide +kernel), rfl⟩, inv_sLongest, _, rfl, ?_⟩
  show (encPayload gk (.raw 0x1234 longest)).length = 65535
  rw [encPayload, List.length_append, longest_length]; rfl
theorem witness_FrameRoundTrip :
    (s40Dirty.Inv ∧ s40Dirty.slot = .held v40Dirty ∧ s0.params = s40Dirty.params) ∧ (sLongest.Inv) ∧
    Runs (.parseFrame fr1) s0 okDone :=
  ⟨⟨inv_s40Dirty, rfl, rfl⟩, inv_sLongest, runs_of (by decide +kernel)⟩
theorem witness_RecomputeIdempotent :
    (s40Dirty.slot = .held v40Dirty ∧ exec .recompute s40Dirty = .next (after .recompute s40Dirty) ∧
      lastOk (after .recompute s40Dirty) = true ∧
      (after .getSeq (after .recompute s40Dirty)).slot = (after .recompute s40Dirty).slot ∧
      (after .getSeq (after .recompute s40Dirty)).params = (after .recompute s40Dirty).params) ∧ Runs (.parseFrame fr1) s0 okDone ∧
    Runs (.newFrameStruct 5 (.struct 0x0001 [42])) s0 okDone ∧ Runs (.newFrameRaw 7 [0x34, 0x12]) s0 okDone ∧
    Runs .serializeFrame s40 (okBytes fr1) :=
  ⟨⟨rfl, next_after (by decide +kernel), by decide +kernel, by decide +kernel, by decide +kernel⟩,
    runs_of (by decide +kernel), runs_of (by decide +kernel), runs_of (by decide +kernel), runs_of (by decide +kernel)⟩
/-- `k` at the ends of each range of an 11-byte frame: 0 and 7, 8 and 31, 32 and 39, 40 and 71, 72 and 87. -/
theorem witness_FrameBitFlip :
    Runs (.parseFrame fr1) s40 okDone ∧ C8Detects1Bit s40.params ∧ C16Detects1Bit s40.params ∧
    7 < 8 ∧ (8 ≤ 31 ∧ 31 < 32) ∧ (32 ≤ 39 ∧ 39 < 40) ∧ (40 ≤ 40 ∧ 71 < 8 * (fr1.length - 2)) ∧
    8 * (fr1.length - 2) ≤ 72 ∧ 87 < 8 * fr1.length :=
  ⟨runs_of (by decide +kernel), gk_c8Detects1Bit, gk_c16Detects1Bit, by decide⟩
theorem witness_StartMarkerFixed :
    Runs (.serializeHeader 4 5) s0 (okBytes (fr1.take 5)) ∧ Runs .serializeFrame s40 (okBytes fr1) ∧
    (Runs (.parseHeader fr1) s0 (okVal (.header ⟨4, 5, 0x62⟩)) ∧ lastOk (after (.parseHeader fr1) s0) = true) ∧
    (Runs (.parseFrame fr1) s0 okDone ∧ lastOk (after (.parseFrame fr1) s0) = true) :=
  ⟨runs_of (by decide +kernel), runs_of (by decide +kernel), ⟨runs_of (by decide +kernel), by decide +kernel⟩,
    runs_of (by decide +kernel), by decide +kernel⟩
theorem witness_FreshFramesEqualIffSameBytes :
    s40.params = gk ∧ s41.params = gk ∧ s40.Inv ∧ s41.Inv ∧ s40.slot = .held v40 ∧ s41.slot = .held v41 ∧
    v40.dirty = false ∧ v41.dirty = false ∧ Runs .serializeFrame s40 (okBytes fr1) ∧ Runs .serializeFrame s41 (okBytes fr7) :=
  ⟨rfl, rfl, inv_s40, inv_s41, rfl, rfl, rfl, rfl, runs_of (by decide +kernel), runs_of (by decide +kernel)⟩
/-- Two frames with the same payload and `seq`, one with stale fields. -/
theorem witness_StaleFieldsNeverSerialized :
    s40Dirty.slot = .held v40Dirty ∧ (gkState (.held { v40 with seq := 9, dl := 77 })).slot = .held { v40 with seq := 9, dl := 77 } ∧
    exec .serializeFrame s40Dirty = .next (after .serializeFrame s40Dirty) ∧
    exec .serializeFrame (gkState (.held { v40 with seq := 9, dl := 77 })) =
      .next (after .serializeFrame (gkState (.held { v40 with seq := 9, dl := 77 }))) :=
  ⟨rfl, rfl, next_after (by decide +kernel), next_after (by decide +kernel)⟩
theorem witness_NewFrameStructLoads : ∃ S, lookup s40.params 0x0001 = some S ∧ S.isVal [65535] = true := ⟨_, rfl, rfl⟩
/-- 65536 bytes; 0 and 1; a wrong width; the longest payload; a registered id. -/
theorem witness_NewFrameRawOutcomes :
    65535 < (List.replicate 65536 (0 : Byte)).length ∧ ([] : Bytes).length < 2 ∧ ([0x01] : Bytes).length < 2 ∧
    (0x34 :: 0x12 :: longest).length ≤ 65535 ∧ lookup s40.params (assemble16 0x34 0x12) = none ∧
    (∃ S, lookup s40.params (assemble16 0x01 0x00) = some S ∧ ([0x2A] : Bytes).length ≠ S.width ∧
      ([0x2A, 0x00] : Bytes).length = S.width) := by
  refine ⟨?_, by decide, by decide, ?_, rfl, _, rfl, by decide, rfl⟩
  · rw [List.length_replicate]; omega
  · rw [List.length_cons, List.length_cons, longest_length]
theorem witness_SetSeqResult : s40.slot = .held v40 ∧ s40Dirty.slot = .held v40Dirty := ⟨rfl, rfl⟩
theorem witness_SetPayloadRawOutcomes :
    s40.slot = .held v40 ∧ 65535 < (List.replicate 65536 (0 : Byte)).length ∧ ([0x01] : Bytes).length < 2 ∧
    (0x34 :: 0x12 :: longest).length ≤ 65535 ∧ lookup s40.params (assemble16 0x34 0x12) = none ∧
    (∃ S, lookup s40.params (assemble16 0x01 0x00) = some S ∧ ([0x2A] : Bytes).length ≠ S.width ∧
      ([0x2A, 0x00] : Bytes).length = S.width) := by
  refine ⟨rfl, ?_, by decide, ?_, rfl, _, rfl, by decide, rfl⟩
  · rw [List.length_replicate]; omega
  · rw [List.length_cons, List.length_cons, longest_length]
theorem witness_SetPayloadStructResult :
    s41.slot = .held v41 ∧ ∃ S, lookup s41.params 0x0002 = some S ∧ S.isVal [] = true := ⟨rfl, _, rfl, rfl⟩
theorem witness_GetterResults : s40Dirty.slot = .held v40Dirty ∧ s41.slot = .held v41 := ⟨rfl, rfl⟩
theorem witness_CmdIdIsFirstTwoBytes :
    Runs .getCmdId s41 (okVal (.u16 0x1234)) ∧ Runs .getPayloadRaw s41 (okBytes [0x34, 0x12, 0xDE, 0xAD, 0xBE]) :=
  ⟨runs_of (by decide +kernel), runs_of (by decide +kernel)⟩
theorem witness_NoFrameRefusals : s0.slot = .empty ∧ structOperand s0.params (.struct 0x0002 []) = true := ⟨rfl, rfl⟩
/-- An unregistered id, and a value one too great. -/
theorem witness_IllegalOperands :
    (∀ S, lookup s0.params 0x1234 = some S → S.isVal [] = false) ∧ ∀ S, lookup s0.params 0x0001 = some S → S.isVal [65536] = false :=
  ⟨fun _ h => (by cases h), fun _ h => (by cases h; rfl)⟩
theorem witness_SequenceNumberIsTheHosts :
    (Runs (.newFrameStruct 5 (.struct 0x0001 [42])) s0 okDone ∧ lastOk (after (.newFrameStruct 5 (.struct 0x0001 [42])) s0) = true) ∧
    (Runs (.newFrameRaw 7 [0x34, 0x12]) s0 okDone ∧ lastOk (after (.newFrameRaw 7 [0x34, 0x12]) s0) = true) ∧
    (s40.Inv ∧ s40.slot = .held v40) ∧
    Runs (.setSeq 9) s40 okDone ∧ (after (.setSeq 9) s40).slot = .held v40Dirty :=
  ⟨⟨runs_of (by decide +kernel), by decide +kernel⟩, ⟨runs_of (by decide +kernel), by decide +kernel⟩, ⟨inv_s40, rfl⟩,
    runs_of (by decide +kernel), by decide +kernel⟩
theorem witness_AtomicFailure :
    Runs (.parseFrame [0xA5]) s40 (err .tooShort .hdr) ∧ (failResponse (.raise .tooShort .hdr)).st ≠ .ok ∧
    Runs .getSeq s40 (okVal (.u8 5)) := ⟨runs_of (by decide +kernel), by decide, runs_of (by decide +kernel)⟩
theorem witness_ErrorsAreThoseOfTheTable :
    Runs .getSeq s40 (okVal (.u8 5)) ∧ Runs (.parseFrame [0xA5]) s40 (err .tooShort .hdr) ∧
    Runs .getSeq s0 (refused .noFrame) :=
  ⟨runs_of (by decide +kernel), runs_of (by decide +kernel), runs_of (by decide +kernel)⟩
theorem witness_FailureLeavesNoTrace :
    Runs (.parseFrame [0xA5]) s40 (err .tooShort .hdr) ∧ lastOk (after (.parseFrame [0xA5]) s40) = false ∧
    Runs .getSeq s40 (okVal (.u8 5)) ∧ Runs .getSeq (after (.parseFrame [0xA5]) s40) (okVal (.u8 5)) :=
  ⟨runs_of (by decide +kernel), by decide +kernel, runs_of (by decide +kernel), runs_of (by decide +kernel)⟩
/-- A run of two steps. -/
theorem witness_ParametersNeverChange :
    ∃ t, Host.Core.run Sys2Proof.core 2 (issuing (.held v40) [encode .dropFrame, bareRequest 0x33]) = .next t := ⟨_, rfl⟩
/-- A failure; a load, a SET, a RECOMPUTE, a GET, DROP_FRAME and a pure operation that succeed. -/
theorem witness_FreshDirtyMachine :
    (Runs .getSeq s0 (refused .noFrame) ∧ lastOk (after .getSeq s0) = false) ∧
    ([.parseFrame fr1, .setSeq 9, .recompute, .getSeq, .dropFrame, .checksum8 []].all
      fun i => isNext (exec i s40) && lastOk (after i s40)) = true :=
  ⟨⟨runs_of (by decide +kernel), by decide +kernel⟩, by decide +kernel⟩
theorem witness_DirtyFlagUnobservable :
    s40.slot = .held v40 ∧ exec .getSeq s40 = .next (after .getSeq s40) ∧
    exec .getSeq { s40 with slot := .held { v40 with dirty := true } } =
      .next (after .getSeq { s40 with slot := .held { v40 with dirty := true } }) :=
  ⟨rfl, next_after (by decide +kernel), next_after (by decide +kernel)⟩
theorem witness_StepKeepsInvariant :
    (issuing (.held v40) [encode (.setSeq 9)]).Inv ∧
    ∃ t, step (issuing (.held v40) [encode (.setSeq 9)]) = .next t ∧ t.slot = .held v40Dirty :=
  ⟨inv_of_sound rfl (by decide +kernel), _, rfl, rfl⟩
theorem witness_FirstOperationAfterReset :
    (∃ t, exec .dropFrame State.reset = .next t) ∧ (∃ t, exec (.parseFrame []) State.reset = .next t) ∧
    (∃ t, exec (.setPayloadStruct (.raw 0x1234 [])) State.reset = .next t) ∧
    ∃ t, exec .getSeq State.reset = .next t := ⟨⟨_, rfl⟩, ⟨_, rfl⟩, ⟨_, rfl⟩, ⟨_, rfl⟩⟩
theorem witness_StepRunsTheOperation :
    (issuing (.held v40) [encode .dropFrame, encode .getSeq]).requests = encode .dropFrame :: [encode .getSeq] ∧
    decode (encode .dropFrame) = .ok .dropFrame ∧
    ∃ t, exec .dropFrame (issuing (.held v40) [encode .dropFrame, encode .getSeq]) = .next t := ⟨rfl, rfl, _, rfl⟩
theorem witness_StepRejectsIllegalOp :
    (issuing (.held v40) [bareRequest 0x33]).requests = bareRequest 0x33 :: [] ∧ ∀ i, opcodeOf i ≠ (bareRequest 0x33).op :=
  ⟨rfl, fun i => by cases i <;> simp [opcodeOf, bareRequest]⟩
theorem witness_IdleKeepsTheState : s40.requests = [] := rfl
theorem witness_NewFrameBytesIsParseFrame :
    (Runs (.parseFrame fr1) s0 okDone ∧ lastOk (after (.parseFrame fr1) s0) = true) ∧
    (Runs (.parseFrame [0xA5]) s40 (err .tooShort .hdr) ∧ lastOk (after (.parseFrame [0xA5]) s40) = false) :=
  ⟨⟨runs_of (by decide +kernel), by decide +kernel⟩, runs_of (by decide +kernel), by decide +kernel⟩
theorem witness_HeaderObject :
    (∃ t, execPseudo (.newHeaderBytes (fr1.take 5)) s0 = .next t ∧ t.results.head? = okVal (.header ⟨4, 5, 0x62⟩)) ∧
    Runs (.parseHeader (fr1.take 5)) s0 (okVal (.header ⟨4, 5, 0x62⟩)) := by
  refine ⟨⟨stateAfter s0 (execPseudo (.newHeaderBytes (fr1.take 5)) s0), ?_, by decide +kernel⟩, runs_of (by decide +kernel)⟩
  have h : isNext (execPseudo (.newHeaderBytes (fr1.take 5)) s0) = true := by decide +kernel
  cases he : execPseudo (.newHeaderBytes (fr1.take 5)) s0 with
  | next t => rfl
  | fault r => rw [he] at h; cases h
  | refused r => rw [he] at h; cases h
theorem witness_InstancesCommute : (0 : Nat) ≠ 1 ∧ [s40, s41][0]? = some s40 ∧ [s40, s41][1]? = some s41 := by decide
/-- A receiver that knows no id, and one that knows id 0x0001 with one field byte. -/
theorem witness_Interoperability :
    s40.Inv ∧ s40.slot = .held v40 ∧ Runs .serializeFrame s40 (okBytes fr1) ∧
    (sameWire s40.params { gk with registry := [] } ∧ lookup { gk with registry := [] } (cmdId v40.payload) = none) ∧
    sameWire s40.params { gk with registry := [{ id := 0x0001, schema := .layout [{ name := "a", width := 1 }] }] } ∧
    ∃ S, lookup { gk with registry := [{ id := 0x0001, schema := .layout [{ name := "a", width := 1 }] }] }
        (cmdId v40.payload) = some S ∧ (encPayload s40.params v40.payload).length ≠ S.width + 2 :=
  ⟨inv_s40, rfl, runs_of (by decide +kernel), ⟨⟨rfl, fun _ => rfl, fun _ => rfl⟩, rfl⟩,
    ⟨rfl, fun _ => rfl, fun _ => rfl⟩, _, rfl, by decide⟩
theorem witness_ScenarioOfTheSource :
    ({ s0 with params := { gk with registry := regT.take 1 } } : State).params.registry =
      [{ id := 0x0001, schema := .layout [{ name := "value", width := 2 }] }] ∧
    (0x62 : Byte) = c8 gk [gk.sof, 0x04, 0x00, 0x05] ∧
    (0x7874 : U16) = c16 gk [gk.sof, 0x04, 0x00, 0x05, 0x62, 0x01, 0x00, 0x2A, 0x00] := by decide +kernel

end Sys2Proof.Tests
end

section
/-! The frame's lengths (R8, R54, R121, R122, R126). -/

namespace Sys2Proof.Machine

/-- Header, payload and tail of an emitted frame, in bytes (R54, R122). -/
@[simp] theorem frameBytes_length (P : Params) (f : Frame) :
    (frameBytes P f).length = 5 + (encPayload P f.payload).length + 2 := by
  simp only [frameBytes, List.length_append, headerBytes_length, le16_length]

/-- `INV_LEN` keeps the payload within 16 bits, so RECOMPUTE cuts nothing off its length (R121 step 1, R126). -/
theorem recompute_dl_toNat {P : Params} {f : Frame} (hf : FrameInv P f) :
    (recompute P f).dl.toNat = (encPayload P f.payload).length :=
  payloadLength_toNat hf.len.2

/-- Settles O18: both operations store the frame `recompute` gives, whose length field is exact under `INV_LEN`; the bounds
of the emitted frame are those of `INV_LEN` with the seven bytes around the payload. -/
theorem frameLengths : Obligations.FrameLengths := by
  intro s f hInv hs
  have hf : FrameInv s.params f := hInv f hs
  have hdl := recompute_dl_toNat hf
  obtain ⟨hmin, hmax⟩ := hf.len
  have hlen : (frameBytes s.params (recompute s.params f)).length = 5 + (encPayload s.params f.payload).length + 2 :=
    frameBytes_length s.params (recompute s.params f)
  refine ⟨⟨_, _, exec_recompute_held hs, rfl, hdl⟩, _, _, _, exec_serializeFrame_held hs, rfl, rfl, hdl, ?_, ?_, ?_⟩
  · rw [hlen, hdl]
  · omega
  · omega

end Sys2Proof.Machine
end

section
/-! What an operation can leave in the slot, said once (R24), and the facts every step keeps that follow from it. -/

namespace Sys2Proof.Machine

/-- What may stand in the slot as a payload: the invariants of R24 that do not speak of the derived fields. -/
structure Storable (P : Params) (p : Payload) : Prop where
  typed : payloadTyped P p = true
  fits : (encPayload P p).length ≤ pmax
  raw : ∀ id data, p = .raw id data → lookup P id = none

theorem FrameInv.storable {P : Params} {f : Frame} (hf : FrameInv P f) : Storable P f.payload :=
  ⟨hf.typed, hf.len.2, hf.raw⟩

theorem Storable.frameInv_freshFrame {P : Params} {p : Payload} (hp : Storable P p) (q : Byte) :
    FrameInv P (freshFrame P q p) :=
  Machine.frameInv_freshFrame hp.typed hp.raw hp.fits

/-- On a Dirty frame the invariants bind the payload alone. -/
theorem Storable.frameInv_of_dirty {P : Params} {f : Frame} (hp : Storable P f.payload) (hd : f.dirty = true) :
    FrameInv P f where
  typed := hp.typed
  len := ⟨encPayload_length P f.payload, hp.fits⟩
  raw := hp.raw
  fresh := fun h => absurd (hd.symm.trans h) (by decide)

theorem storable_of_parsePayload {P : Params} {buf : Bytes} {p : Payload} (hfit : rawFits buf = true)
    (h : parsePayload P buf = .ok p) : Storable P p := by
  obtain ⟨htyped, hraw, henc⟩ := parsePayload_ok h
  exact ⟨htyped, henc ▸ (rawFits_iff buf).mp hfit, hraw⟩

theorem storable_of_structOperand {P : Params} {p : Payload} (h : structOperand P p = true) : Storable P p := by
  obtain ⟨id, v, S, rfl, hS, hv⟩ := structOperand_eq_true h
  exact ⟨payloadTyped_struct.mpr ⟨S, hS, hv⟩, encPayload_struct_length hS hv, fun _ _ e => nomatch e⟩

/-- The length a sound frame carries is a 16-bit number, so its payload fits. -/
theorem storable_of_parseFrame {P : Params} {buf : Bytes} {f : Frame} (h : parseFrame P buf = .ok f) :
    Storable P f.payload := by
  obtain ⟨_, _, htyped, hraw, hdl⟩ := parseFrame_ok h
  exact ⟨htyped, hdl ▸ Nat.le_of_lt_succ f.dl.isLt, hraw⟩

/-- An operation that goes on with what a parser gives, and fails as the parser fails. -/
def State.onParsed {α : Type} (s : State) (r : Except Failure α) (k : α → StepOutcome) : StepOutcome :=
  match r with
  | .error e => s.fail e
  | .ok a => k a

theorem exec_parseHeader_eq (buf : Bytes) (s : State) :
    exec (.parseHeader buf) s = s.onParsed (parseHeader s.params buf) fun h => s.finishValue (.header h) := by
  cases h : parseHeader s.params buf with
  | error e => exact exec_parseHeader_error h
  | ok _ => exact exec_parseHeader_ok h

theorem exec_parsePayload_eq (buf : Bytes) (s : State) :
    exec (.parsePayload buf) s = s.onParsed (parsePayload s.params buf) fun p => s.finishValue (.payload p) := by
  cases h : parsePayload s.params buf with
  | error e => exact exec_parsePayload_error h
  | ok _ => exact exec_parsePayload_ok h

theorem exec_parseFrame_eq (buf : Bytes) (s : State) :
    exec (.parseFrame buf) s = s.onParsed (parseFrame s.params buf) fun f => s.finishSlot (.held f) := by
  cases h : parseFrame s.params buf with
  | error e => exact exec_parseFrame_error h
  | ok _ => exact exec_parseFrame_ok h

theorem exec_newFrameRaw_eq (q : Byte) (buf : Bytes) (s : State) :
    exec (.newFrameRaw q buf) s =
      if rawFits buf then
        s.onParsed (parsePayload s.params buf) fun p => s.finishSlot (.held (freshFrame s.params q p))
      else s.fail (.refuse .tooLong) := by
  show execNewFrameRaw q buf s = _
  unfold execNewFrameRaw
  cases parsePayload s.params buf <;> rfl

theorem exec_setPayloadRaw_eq (buf : Bytes) (s : State) :
    exec (.setPayloadRaw buf) s = s.onFrame fun f =>
      if rawFits buf then
        s.onParsed (parsePayload s.params buf) fun p => s.finishSlot (.held (markDirty { f with payload := p }))
      else s.fail (.refuse .tooLong) := by
  show execSetPayloadRaw buf s = _
  unfold execSetPayloadRaw
  cases parsePayload s.params buf <;> rfl

/-- All an operation can make of the slot `x`, under the parameters `P`. -/
inductive SlotWrite (P : Params) (x : Slot) : Slot → Prop
  /-- A pure operation, a GET, or a failure. -/
  | kept : SlotWrite P x x
  /-- DROP_FRAME. -/
  | dropped : SlotWrite P x .empty
  /-- PARSE_FRAME, NEW_FRAME_STRUCT, NEW_FRAME_RAW. -/
  | loaded (q : Byte) {p : Payload} (hp : Storable P p) : SlotWrite P x (.held (freshFrame P q p))
  /-- RECOMPUTE, SERIALIZE_FRAME. -/
  | recomputed {f : Frame} (hx : x = .held f) : SlotWrite P x (.held (recompute P f))
  /-- SET_SEQ. -/
  | seqSet {f : Frame} (hx : x = .held f) (q : Byte) : SlotWrite P x (.held (markDirty { f with seq := q }))
  /-- SET_PAYLOAD_RAW, SET_PAYLOAD_STRUCT. -/
  | payloadSet {f : Frame} (hx : x = .held f) {p : Payload} (hp : Storable P p) :
    SlotWrite P x (.held (markDirty { f with payload := p }))

/-- The outcome is one such write and one result for the host, and nothing else. -/
def WritesSlot (s : State) (o : StepOutcome) : Prop :=
  ∃ y r, SlotWrite s.params s.slot y ∧ o = .next ((s.withSlot y).answer r)

theorem writesSlot_fail (s : State) (e : Failure) : WritesSlot s (s.fail e) := ⟨s.slot, failResponse e, .kept, rfl⟩

theorem writesSlot_finish {s : State} {y : Slot} (b : Option Bytes) (v : Option ResultValue)
    (hy : SlotWrite s.params s.slot y) : WritesSlot s (s.finish y b v) := ⟨y, okResponse b v, hy, rfl⟩

theorem writesSlot_onFrame {s : State} {k : Frame → StepOutcome} (hk : ∀ f, s.slot = .held f → WritesSlot s (k f)) :
    WritesSlot s (s.onFrame k) := by
  rcases onFrame_cases s k with ⟨_, e⟩ | ⟨f, hf, e⟩
  · exact e ▸ writesSlot_fail s _
  · exact e ▸ hk f hf

theorem writesSlot_onParsed {α : Type} {s : State} {r : Except Failure α} {k : α → StepOutcome}
    (hk : ∀ a, r = .ok a → WritesSlot s (k a)) : WritesSlot s (s.onParsed r k) := by
  cases r with
  | error e => exact writesSlot_fail s e
  | ok a => exact hk a rfl

/-- A check of the operands, and the refusal where they fail it. -/
theorem writesSlot_check {s : State} {c : Prop} [Decidable c] {o : StepOutcome} {e : Failure}
    (ho : c → WritesSlot s o) : WritesSlot s (if c then o else s.fail e) := by
  by_cases hc : c
  · exact if_pos hc ▸ ho hc
  · exact if_neg hc ▸ writesSlot_fail s e

/-- Every operation, on every state, is one write of the slot and one result. -/
theorem exec_writesSlot (i : Instr) (s : State) : WritesSlot s (exec i s) := by
  cases i
  case checksum8 | checksum16 | serializeHeader => exact writesSlot_finish _ _ .kept
  case parseHeader buf =>
    rw [exec_parseHeader_eq]
    exact writesSlot_onParsed fun _ _ => writesSlot_finish _ _ .kept
  case parsePayload buf =>
    rw [exec_parsePayload_eq]
    exact writesSlot_onParsed fun _ _ => writesSlot_finish _ _ .kept
  case serializePayload pay => exact writesSlot_check fun _ => writesSlot_finish _ _ .kept
  case parseFrame buf =>
    rw [exec_parseFrame_eq]
    refine writesSlot_onParsed fun f hf => ?_
    obtain ⟨_, hfresh, _⟩ := parseFrame_ok hf
    rw [hfresh]
    exact writesSlot_finish _ _ (.loaded f.seq (storable_of_parseFrame hf))
  case newFrameStruct q pay =>
    exact writesSlot_check fun hpay => writesSlot_finish _ _ (.loaded q (storable_of_structOperand hpay))
  case newFrameRaw q buf =>
    rw [exec_newFrameRaw_eq]
    exact writesSlot_check fun hfit => writesSlot_onParsed fun _ hp =>
      writesSlot_finish _ _ (.loaded q (storable_of_parsePayload hfit hp))
  case recompute | serializeFrame => exact writesSlot_onFrame fun _ hf => writesSlot_finish _ _ (.recomputed hf)
  case setSeq q => exact writesSlot_onFrame fun _ hf => writesSlot_finish _ _ (.seqSet hf q)
  case setPayloadRaw buf =>
    rw [exec_setPayloadRaw_eq]
    exact writesSlot_onFrame fun _ hf => writesSlot_check fun hfit => writesSlot_onParsed fun _ hp =>
      writesSlot_finish _ _ (.payloadSet hf (storable_of_parsePayload hfit hp))
  case setPayloadStruct pay =>
    exact writesSlot_check fun hpay => writesSlot_onFrame fun _ hf =>
      writesSlot_finish _ _ (.payloadSet hf (storable_of_structOperand hpay))
  case getSeq | getDataLength | getHeaderChecksum | getFrameTail | getCmdId | getPayloadRaw | getPayloadStruct =>
    exact writesSlot_onFrame fun _ _ => writesSlot_finish _ _ .kept
  case dropFrame => exact writesSlot_finish _ _ .dropped

/-- The state after an operation: the slot written, one result received, all else kept. -/
theorem exec_next {i : Instr} {s t : State} (h : exec i s = .next t) :
    ∃ y r, SlotWrite s.params s.slot y ∧ t = (s.withSlot y).answer r := by
  obtain ⟨y, r, hy, ht⟩ := exec_writesSlot i s
  exact ⟨y, r, hy, Host.Outcome.next.inj (h.symm.trans ht)⟩

theorem exec_requests {i : Instr} {s t : State} (h : exec i s = .next t) : t.requests = s.requests := by
  obtain ⟨y, r, _, rfl⟩ := exec_next h
  rfl

theorem exec_params {i : Instr} {s t : State} (h : exec i s = .next t) : t.params = s.params := by
  obtain ⟨y, r, _, rfl⟩ := exec_next h
  rfl

end Sys2Proof.Machine
end

section
/-! The invariant of the slot (R24). -/

namespace Sys2Proof.Machine

/-- The invariant speaks of the slot and the parameters only. -/
theorem State.Inv.congr {s t : State} (hs : s.Inv) (hslot : t.slot = s.slot) (hparams : t.params = s.params) :
    t.Inv := fun f hf => hparams ▸ hs f (hslot ▸ hf)

theorem SlotWrite.keeps_frameInv {P : Params} {x y : Slot} (h : SlotWrite P x y)
    (hx : ∀ f, x = .held f → FrameInv P f) : ∀ g, y = .held g → FrameInv P g := by
  intro g hg
  cases h with
  | kept => exact hx g hg
  | dropped => cases hg
  | loaded q hp => cases hg; exact hp.frameInv_freshFrame q
  | recomputed hf => cases hg; exact (hx _ hf).storable.frameInv_freshFrame _
  | seqSet hf q => cases hg; exact Storable.frameInv_of_dirty (hx _ hf).storable rfl
  | payloadSet hf hp => cases hg; exact Storable.frameInv_of_dirty hp rfl

theorem exec_keeps_inv {i : Instr} {s t : State} (hs : s.Inv) (h : exec i s = .next t) : t.Inv := by
  obtain ⟨y, r, hy, rfl⟩ := exec_next h
  exact hy.keeps_frameInv hs

theorem retire_eq_next {o : StepOutcome} {t : State} (h : retire o = .next t) :
    ∃ u, o = .next u ∧ t = { u with requests := u.requests.tail } := by
  cases o with
  | next u => exact ⟨u, rfl, (Host.Outcome.next.inj h).symm⟩
  | fault r => cases h
  | refused r => cases h

/-- Settles O44: an idle step and a rejected record leave slot and parameters alone; an operation makes one of the writes of
`SlotWrite`, each of which keeps the invariant. -/
theorem stepKeepsInvariant : Obligations.StepKeepsInvariant := by
  intro s t hs hstep
  rcases step_cases s with ⟨_, hidle⟩ | ⟨_, _, _, _, _, hreject⟩ | ⟨_, _, i, _, _, hexec⟩
  · obtain rfl := Host.Outcome.next.inj (hidle.symm.trans hstep)
    exact hs
  · obtain rfl := Host.Outcome.next.inj (hreject.symm.trans hstep)
    exact hs.congr rfl rfl
  · obtain ⟨u, hu, rfl⟩ := retire_eq_next (hexec.symm.trans hstep)
    exact (exec_keeps_inv hs hu).congr rfl rfl

/-- Settles O45: the slot is empty after reset, so there is no frame to speak of. -/
theorem resetMeetsInvariant : Obligations.ResetMeetsInvariant := by
  intro f hf
  cases hf

/-- Settles O51: a step performs the operation the record decodes to, and no operation touches the host's list. -/
theorem stepRunsTheOperation : Obligations.StepRunsTheOperation := by
  intro s t r rs i hreq hdec hexec
  have hkept : t.requests = s.requests := exec_requests hexec
  refine ⟨?_, hkept⟩
  rw [step_of_decode hreq hdec hexec, hkept, hreq, List.tail_cons]

end Sys2Proof.Machine
end

section
/-! The start marker (R18). -/

namespace Sys2Proof.Machine

@[simp] theorem headerBytes_append_head? (P : Params) (dl : U16) (q : Byte) (rest : Bytes) :
    (headerBytes P dl q ++ rest).head? = some P.sof := rfl

@[simp] theorem frameBytes_head? (P : Params) (f : Frame) : (frameBytes P f).head? = some P.sof := rfl

/-- A success with a byte result names its bytes. -/
theorem bytes_of_finish {s t : State} {x : Slot} {a b : Bytes} (h : s.finish x (some a) none = .next t)
    (hb : t.results.head? = some (okResponse (some b) none)) : b = a := by
  obtain rfl := Host.Outcome.next.inj h
  have hr : okResponse (some a) none = okResponse (some b) none := Option.some.inj hb
  exact (Option.some.inj (congrArg Response.rBuf hr)).symm

theorem serializeHeader_bytes {dl : U16} {q : Byte} {s t : State} {b : Bytes} (h : exec (.serializeHeader dl q) s = .next t)
    (hb : t.results.head? = some (okResponse (some b) none)) : b = headerBytes s.params dl q :=
  bytes_of_finish h hb

/-- SERIALIZE_FRAME gives bytes only where a frame is held, and then those of the recomputed frame (R122). -/
theorem serializeFrame_bytes {s t : State} {b : Bytes} (h : exec .serializeFrame s = .next t)
    (hb : t.results.head? = some (okResponse (some b) none)) :
    ∃ f, s.slot = .held f ∧ b = frameBytes s.params (recompute s.params f) := by
  cases hs : s.slot with
  | empty =>
    obtain rfl := Host.Outcome.next.inj ((onFrame_empty _ hs).symm.trans h)
    exact absurd (Option.some.inj hb).symm (okResponse_ne_failResponse _ _ _)
  | held f => exact ⟨f, rfl, bytes_of_finish ((exec_serializeFrame_held hs).symm.trans h) hb⟩

theorem not_lastOk_of_fail {s t : State} {e : Failure} (h : s.fail e = .next t) : lastOk t = false := by
  obtain rfl := Host.Outcome.next.inj h
  exact lastOk_answer_fail s e

theorem parseHeader_ok_of_lastOk {buf : Bytes} {s t : State} (h : exec (.parseHeader buf) s = .next t)
    (ht : lastOk t = true) : ∃ hd, parseHeader s.params buf = .ok hd := by
  cases hp : parseHeader s.params buf with
  | ok hd => exact ⟨hd, rfl⟩
  | error e => simp [not_lastOk_of_fail ((exec_parseHeader_error hp).symm.trans h)] at ht

theorem parseFrame_ok_of_lastOk {buf : Bytes} {s t : State} (h : exec (.parseFrame buf) s = .next t)
    (ht : lastOk t = true) : ∃ f, parseFrame s.params buf = .ok f := by
  cases hp : parseFrame s.params buf with
  | ok f => exact ⟨f, rfl⟩
  | error e => simp [not_lastOk_of_fail ((exec_parseFrame_error hp).symm.trans h)] at ht

/-- Settles O22: emitted bytes are those of `headerBytes` or `frameBytes`, and so are the bytes that parse; both begin with
`SOF`. -/
theorem startMarkerFixed : Obligations.StartMarkerFixed := by
  refine ⟨fun i s t b hexec hb hi => ?_, fun buf s t ht hexec => ?_⟩
  · cases i
    case serializeHeader dl q =>
      rw [serializeHeader_bytes hexec hb]
      rfl
    case serializeFrame =>
      obtain ⟨f, _, rfl⟩ := serializeFrame_bytes hexec hb
      exact frameBytes_head? _ _
    all_goals exact hi.elim
  · rcases hexec with hheader | hframe
    · obtain ⟨hd, hp⟩ := parseHeader_ok_of_lastOk hheader ht
      obtain ⟨_, rest, rfl⟩ := parseHeader_ok hp
      exact headerBytes_append_head? _ _ _ rest
    · obtain ⟨f, hp⟩ := parseFrame_ok_of_lastOk hframe ht
      obtain ⟨rfl, _⟩ := parseFrame_ok hp
      exact frameBytes_head? _ f

end Sys2Proof.Machine
end

section
/-! `F.dirty` is unobservable (R19): two slots that differ in the flag alone stay so under every operation, with the same
results. -/

namespace Sys2Proof.Machine

/-- Two slots that are equal but for the flag. -/
inductive SameButDirty : Slot → Slot → Prop
  | empty : SameButDirty .empty .empty
  | held (f : Frame) (d : Bool) : SameButDirty (.held f) (.held { f with dirty := d })

theorem SameButDirty.refl (x : Slot) : SameButDirty x x := by
  cases x with
  | empty => exact .empty
  | held f => exact .held f f.dirty

theorem SameButDirty.sameFrame {f g : Frame} (h : SameButDirty (.held f) (.held g)) : sameFrame f g := by
  cases h
  exact ⟨rfl, rfl, rfl, rfl, rfl⟩

theorem SameButDirty.fv_eq {s t : State} (h : SameButDirty s.slot t.slot) : t.fv = s.fv := by
  unfold State.fv
  generalize s.slot = x at h ⊢
  generalize t.slot = y at h ⊢
  cases h <;> rfl

/-- Two outcomes, of the state `s` and of the same state with the slot `y`: the same failure, or the same results and slots
that are equal but for the flag. -/
inductive TwinOutcomes (s : State) (y : Slot) : StepOutcome → StepOutcome → Prop
  | fails (e : Failure) : TwinOutcomes s y (s.fail e) ((s.withSlot y).fail e)
  | finishes {x' y' : Slot} (h : SameButDirty x' y') (b : Option Bytes) (v : Option ResultValue) :
    TwinOutcomes s y (s.finish x' b v) ((s.withSlot y).finish y' b v)

theorem TwinOutcomes.next {s t u : State} {y : Slot} (h : TwinOutcomes s y (.next t) (.next u))
    (hy : SameButDirty s.slot y) : u.results = t.results ∧ SameButDirty t.slot u.slot := by
  generalize ho : Host.Outcome.next t = o at h
  generalize ho' : Host.Outcome.next u = o' at h
  cases h with
  | fails e =>
    obtain rfl := Host.Outcome.next.inj ho
    obtain rfl := Host.Outcome.next.inj ho'
    exact ⟨rfl, hy⟩
  | finishes h b v =>
    obtain rfl := Host.Outcome.next.inj ho
    obtain rfl := Host.Outcome.next.inj ho'
    exact ⟨rfl, h⟩

theorem twinOutcomes_onFrame {s : State} {y : Slot} {k k' : Frame → StepOutcome} (hy : SameButDirty s.slot y)
    (hk : ∀ f d, TwinOutcomes s y (k f) (k' { f with dirty := d })) :
    TwinOutcomes s y (s.onFrame k) ((s.withSlot y).onFrame k') := by
  generalize hx : s.slot = x at hy
  cases hy with
  | empty => exact onFrame_empty k hx ▸ .fails _
  | held f d => exact onFrame_held k hx ▸ hk f d

theorem twinOutcomes_onParsed {α : Type} {s : State} {y : Slot} (r : Except Failure α) {k k' : α → StepOutcome}
    (hk : ∀ a, TwinOutcomes s y (k a) (k' a)) : TwinOutcomes s y (s.onParsed r k) ((s.withSlot y).onParsed r k') := by
  cases r with
  | error e => exact .fails e
  | ok a => exact hk a

/-- A check of the operands, which reads no slot, and the refusal where they fail it. -/
theorem twinOutcomes_check {s : State} {y : Slot} {c : Prop} [Decidable c] {o o' : StepOutcome} {e : Failure}
    (ho : TwinOutcomes s y o o') :
    TwinOutcomes s y (if c then o else s.fail e) (if c then o' else (s.withSlot y).fail e) := by
  by_cases hc : c
  · rw [if_pos hc, if_pos hc]
    exact ho
  · rw [if_neg hc, if_neg hc]
    exact .fails e

/-- Every operation: what it answers and what it writes but the flag are read from the rest of the slot. -/
theorem exec_twinOutcomes (i : Instr) {s : State} {y : Slot} (hy : SameButDirty s.slot y) :
    TwinOutcomes s y (exec i s) (exec i (s.withSlot y)) := by
  cases i
  case checksum8 | checksum16 | serializeHeader => exact .finishes hy _ _
  case parseHeader buf =>
    rw [exec_parseHeader_eq, exec_parseHeader_eq]
    exact twinOutcomes_onParsed _ fun _ => .finishes hy _ _
  case parsePayload buf =>
    rw [exec_parsePayload_eq, exec_parsePayload_eq]
    exact twinOutcomes_onParsed _ fun _ => .finishes hy _ _
  case serializePayload pay => exact twinOutcomes_check (.finishes hy _ _)
  case parseFrame buf =>
    rw [exec_parseFrame_eq, exec_parseFrame_eq]
    exact twinOutcomes_onParsed _ fun _ => .finishes (.refl _) _ _
  case newFrameStruct q pay => exact twinOutcomes_check (.finishes (.refl _) _ _)
  case newFrameRaw q buf =>
    rw [exec_newFrameRaw_eq, exec_newFrameRaw_eq]
    exact twinOutcomes_check (twinOutcomes_onParsed _ fun _ => .finishes (.refl _) _ _)
  case recompute | serializeFrame | setSeq => exact twinOutcomes_onFrame hy fun _ _ => .finishes (.refl _) _ _
  case setPayloadRaw buf =>
    rw [exec_setPayloadRaw_eq, exec_setPayloadRaw_eq]
    exact twinOutcomes_onFrame hy fun _ _ =>
      twinOutcomes_check (twinOutcomes_onParsed _ fun _ => .finishes (.refl _) _ _)
  case setPayloadStruct pay =>
    exact twinOutcomes_check (twinOutcomes_onFrame hy fun _ _ => .finishes (.refl _) _ _)
  case getSeq | getDataLength | getHeaderChecksum | getFrameTail | getCmdId | getPayloadRaw | getPayloadStruct =>
    exact twinOutcomes_onFrame hy fun _ _ => .finishes hy _ _
  case dropFrame => exact .finishes .empty _ _

/-- Settles O43: the two runs start from slots equal but for the flag, so they answer alike and end in such slots. -/
theorem dirtyFlagUnobservable : Obligations.DirtyFlagUnobservable := by
  intro i s t u f d hs ht hu
  have hy : SameButDirty s.slot (.held { f with dirty := d }) := hs ▸ .held f d
  have htwin := exec_twinOutcomes i hy
  rw [ht, show exec i (s.withSlot (.held { f with dirty := d })) = .next u from hu] at htwin
  obtain ⟨hresults, hslot⟩ := htwin.next hy
  refine ⟨hresults, hslot.fv_eq, fun g h hg hh => ?_⟩
  rw [hg, hh] at hslot
  exact hslot.sameFrame

end Sys2Proof.Machine
end

section
/-! Runs of the machine, and the parameters they keep (R42, R206). -/

namespace Sys2Proof.Machine

/-- A step writes no parameter: idling and rejecting a record write no state, and no operation writes the parameters. -/
theorem step_params {s t : State} (h : step s = .next t) : t.params = s.params := by
  rcases step_cases s with ⟨_, hidle⟩ | ⟨_, _, _, _, _, hreject⟩ | ⟨_, _, _, _, _, hexec⟩
  · obtain rfl := Host.Outcome.next.inj (hidle.symm.trans h)
    rfl
  · obtain rfl := Host.Outcome.next.inj (hreject.symm.trans h)
    rfl
  · obtain ⟨u, hu, rfl⟩ := retire_eq_next (hexec.symm.trans h)
    exact exec_params (t := u) hu

/-- A run of `n + 1` steps is a step and the run of `n` steps from where it leads. -/
theorem run_succ_eq_next {M : Host.Core} {n : Nat} {s t : M.State} (h : M.run (n + 1) s = .next t) :
    ∃ u, M.step s = .next u ∧ M.run n u = .next t := by
  rw [Host.Core.run] at h
  cases hs : M.step s with
  | next u => exact ⟨u, rfl, by simpa only [hs] using h⟩
  | fault r => simp [hs] at h
  | refused r => simp [hs] at h

/-- What every step keeps, every run keeps. -/
theorem run_keeps {M : Host.Core} {p : M.State → Prop} (hstep : ∀ s t, p s → M.step s = .next t → p t) {n : Nat}
    {s t : M.State} (hs : p s) (h : M.run n s = .next t) : p t := by
  induction n generalizing s with
  | zero =>
    obtain rfl := Host.Outcome.next.inj h
    exact hs
  | succ n ih =>
    obtain ⟨u, hu, hrun⟩ := run_succ_eq_next h
    exact ih (hstep s u hs hu) hrun

theorem run_params {n : Nat} {s t : State} (h : Host.Core.run Sys2Proof.core n s = .next t) : t.params = s.params :=
  run_keeps (M := Sys2Proof.core) (p := fun u : State => u.params = s.params)
    (fun _ _ hu hstep => (step_params hstep).trans hu) rfl h

/-- Settles O41: a run keeps the parameters themselves, so all that is read from them. -/
theorem parametersNeverChange : Obligations.ParametersNeverChange := by
  intro n s t hrun
  rw [run_params hrun]
  exact ⟨rfl, fun _ => rfl, fun _ => rfl, fun _ => rfl⟩

end Sys2Proof.Machine
end

section
/-! Several instances (R25, R41). -/

namespace Sys2Proof.Machine

/-- Every operation ends in a next state, with one result more (R180, R182). -/
theorem exec_one_result (i : Instr) (s : State) : ∃ t r, exec i s = .next t ∧ t.results = r :: s.results := by
  obtain ⟨y, r, _, ht⟩ := exec_writesSlot i s
  exact ⟨_, r, ht, rfl⟩

@[simp] theorem performAt_length (k : Nat) (i : Instr) (ss : List State) : (performAt k i ss).length = ss.length :=
  List.length_modify ..

theorem performAt_getElem?_same {ss : List State} {k : Nat} {i : Instr} {s t : State} (hs : ss[k]? = some s)
    (ht : exec i s = .next t) : (performAt k i ss)[k]? = some t := by
  rw [performAt, List.getElem?_modify_eq, hs, Option.map_eq_map, Option.map_some, ht, stateAfter]

theorem performAt_getElem?_ne {k m : Nat} (i : Instr) (ss : List State) (h : m ≠ k) :
    (performAt k i ss)[m]? = ss[m]? :=
  List.getElem?_modify_ne _ _ h.symm

theorem performAt_comm {j k : Nat} (a b : Instr) (ss : List State) (h : j ≠ k) :
    performAt j a (performAt k b ss) = performAt k b (performAt j a ss) :=
  List.modify_modify_ne _ _ _ h.symm

/-- Settles O56: `performAt` modifies one place of the list, with `exec` of the state there; modifications of different
places commute, and neither reads what the other writes. -/
theorem instancesCommute : Obligations.InstancesCommute := by
  refine ⟨fun ss k a s hs => ?_, fun ss j k a b s u hjk hs hu => ?_⟩
  · obtain ⟨t, r, ht, hr⟩ := exec_one_result a s
    exact ⟨t, r, ht, hr, performAt_getElem?_same hs ht, performAt_length k a ss,
      fun _ hm => performAt_getElem?_ne a ss hm⟩
  · obtain ⟨t, p, ht, hp⟩ := exec_one_result a s
    obtain ⟨v, q, hv, hq⟩ := exec_one_result b u
    have hcomm := performAt_comm a b ss hjk
    have hj : (performAt k b ss)[j]? = some s := (performAt_getElem?_ne b ss hjk).trans hs
    have hk : (performAt j a ss)[k]? = some u := (performAt_getElem?_ne a ss hjk.symm).trans hu
    exact ⟨t, v, p, q, ht, hp, hv, hq, hcomm, performAt_getElem?_same hj ht, hcomm ▸ performAt_getElem?_same hk hv⟩

end Sys2Proof.Machine
end

section
/-! The operation records (R58 to R60): what `decode` reads, what `encode` writes and the words of the table agree. -/

namespace Sys2Proof.Laws.RoundTrip

theorem holds (i : Instr) : Statement i :=
  Instr.rec (motive := Statement) checksum8 checksum16 parseHeader serializeHeader parsePayload serializePayload parseFrame
    recompute serializeFrame newFrameStruct newFrameRaw setSeq setPayloadRaw setPayloadStruct getSeq getDataLength
    getHeaderChecksum getFrameTail getCmdId getPayloadRaw getPayloadStruct dropFrame i

end Sys2Proof.Laws.RoundTrip

namespace Sys2Proof.Machine

theorem decode_encode (i : Instr) : decode (encode i) = .ok i := Laws.RoundTrip.holds i

/-- The record of an operation has its `OP` and the operands its row names (R59). -/
theorem decode_ok {r : Request} {i : Instr} (h : decode r = .ok i) :
    r.op = opcodeOf i ∧ agreeOn (formatOf i) r (encode i) := by
  unfold decode at h
  split at h
  case h_23 => cases h
  all_goals
    next hop =>
    cases h
    exact ⟨BitVec.eq_of_toNat_eq hop, by simp [agreeOn, formatOf, encode]⟩

/-- The decoder reads `OP` and the operands of the operation's format, and nothing else (R59). -/
theorem decode_of_agreeOn {r : Request} {i : Instr} (hop : r.op = opcodeOf i)
    (h : agreeOn (formatOf i) r (encode i)) : decode r = .ok i := by
  obtain ⟨op, aBuf, aSeq, aDl, aPay⟩ := r
  obtain rfl : op = opcodeOf i := hop
  cases i
  case recompute | serializeFrame | getSeq | getDataLength | getHeaderChecksum | getFrameTail | getCmdId | getPayloadRaw
    | getPayloadStruct | dropFrame => rfl
  case checksum8 buf | checksum16 buf | parseHeader buf | parsePayload buf | parseFrame buf | setPayloadRaw buf =>
    obtain rfl : aBuf = buf := h
    rfl
  case setSeq q =>
    obtain rfl : aSeq = q := h
    rfl
  case serializePayload pay | setPayloadStruct pay =>
    obtain rfl : aPay = pay := h
    rfl
  case serializeHeader dl q =>
    obtain ⟨rfl, rfl⟩ : aDl = dl ∧ aSeq = q := h
    rfl
  case newFrameStruct q pay =>
    obtain ⟨rfl, rfl⟩ : aSeq = q ∧ aPay = pay := h
    rfl
  case newFrameRaw q buf =>
    obtain ⟨rfl, rfl⟩ : aSeq = q ∧ aBuf = buf := h
    rfl

/-- Settles O48: `encode` writes what `decode` reads, and `decode` reads `OP` and the named operands alone. -/
theorem decodeEncodeAgree : Obligations.DecodeEncodeAgree :=
  ⟨decode_encode, fun _ _ => ⟨decode_ok, fun ⟨hop, hagree⟩ => decode_of_agreeOn hop hagree⟩⟩

/-- A table word decodes to the operation whose record it stands for (R58). -/
theorem decodeTableWord_eq_some {w : Nat} {i : Instr} (h : tableRequest w = encode i) : decodeTableWord 8 w = some i := by
  rw [decodeTableWord, if_pos rfl, h, decode_encode]

/-- Settles O49: the word of each row stands for the same record as the operation named. -/
theorem tableWordsDecode : Obligations.TableWordsDecode := by
  unfold Obligations.TableWordsDecode
  and_intros
  all_goals exact decodeTableWord_eq_some rfl

/-- The 22 operations with empty or zero operands, in the table's order: one for each row (R58). -/
def bareOperations : List Instr :=
  [.checksum8 [], .checksum16 [], .parseHeader [], .serializeHeader 0 0, .parsePayload [], .serializePayload (.raw 0 []),
    .parseFrame [], .recompute, .serializeFrame, .newFrameStruct 0 (.raw 0 []), .newFrameRaw 0 [], .setSeq 0,
    .setPayloadRaw [], .setPayloadStruct (.raw 0 []), .getSeq, .getDataLength, .getHeaderChecksum, .getFrameTail, .getCmdId,
    .getPayloadRaw, .getPayloadStruct, .dropFrame]

theorem encode_of_mem_bareOperations : ∀ i ∈ bareOperations, encode i = bareRequest (opcodeOf i) := by decide

/-- The codes of the table (R58). -/
def operationCodes : List Byte := bareOperations.map opcodeOf

theorem opcodeOf_mem_operationCodes (i : Instr) : opcodeOf i ∈ operationCodes := by
  cases i <;> simp [operationCodes, bareOperations, opcodeOf]

/-- The words of no operation are those whose 8 bits are none of the table's 22 codes (R60). -/
theorem decodeTableWord_eq_none_iff (w : Nat) : decodeTableWord 8 w = none ↔ BitVec.ofNat 8 w ∉ operationCodes := by
  constructor
  · intro hnone hmem
    obtain ⟨i, hi, hop⟩ := List.mem_map.mp hmem
    have hreq : tableRequest w = encode i := by rw [encode_of_mem_bareOperations i hi, hop, tableRequest]
    rw [decodeTableWord_eq_some hreq] at hnone
    cases hnone
  · intro hmem
    have hreject (i : Instr) : decode (tableRequest w) ≠ .ok i := by
      intro hi
      have hop : BitVec.ofNat 8 w = opcodeOf i := (decode_ok hi).1
      exact hmem (hop ▸ opcodeOf_mem_operationCodes i)
    rw [decodeTableWord, if_pos rfl]
    cases hd : decode (tableRequest w) with
    | error e => rfl
    | ok i => exact absurd hd (hreject i)

/-- Settles O50: of the 256 codes, those outside the table's 22 are counted. -/
theorem illegalCodesCounted : Obligations.IllegalCodesCounted := by
  have hillegal (w : Nat) : (decodeTableWord 8 w).isNone = decide (BitVec.ofNat 8 w ∉ operationCodes) := by
    rw [Bool.eq_iff_iff, Option.isNone_iff_eq_none, decide_eq_true_iff, decodeTableWord_eq_none_iff]
  simp only [Obligations.IllegalCodesCounted, hillegal]
  decide +kernel

/-- Settles O52: of the three things a step can do, the record leaves it only the rejection. -/
theorem stepRejectsIllegalOp : Obligations.StepRejectsIllegalOp := by
  intro s r rs hreq hop
  rcases step_cases s with ⟨hnil, _⟩ | ⟨r', rs', _, hreq', _, hreject⟩ | ⟨r', rs', i, hreq', hdec, _⟩
  · cases hreq.symm.trans hnil
  · obtain ⟨rfl, rfl⟩ := List.cons.inj (hreq.symm.trans hreq')
    exact hreject
  · obtain ⟨rfl, rfl⟩ := List.cons.inj (hreq.symm.trans hreq')
    exact absurd (decode_ok hdec).1.symm (hop i)

end Sys2Proof.Machine
end

section
/-! Serialized bytes name the frame (R66). -/

namespace Sys2Proof.Machine

/-- `dirty` is the one field `sameFrame` leaves out. -/
theorem eq_of_sameFrame {f g : Frame} (h : sameFrame f g) (hd : f.dirty = g.dirty) : f = g := by
  obtain ⟨_, _, _, _, _, d⟩ := f
  obtain ⟨_, _, _, _, _, e⟩ := g
  obtain rfl : d = e := hd
  obtain ⟨rfl, rfl, rfl, rfl, rfl⟩ := h
  rfl

/-- `INV_FRESH`: a Fresh frame is the one RECOMPUTE derives from its payload and `seq` (R24, R121). -/
theorem FrameInv.recompute_eq_self {P : Params} {f : Frame} (hf : FrameInv P f) (hd : f.dirty = false) :
    recompute P f = f := by
  obtain ⟨hdl, hhc, htail⟩ := hf.fresh hd
  have hlen : payloadLength P f.payload = f.dl := by rw [payloadLength, ← hdl, BitVec.ofNat_toNat, BitVec.setWidth_eq]
  have hsum : headerChecksum P f.dl f.seq = f.hc := hhc.symm
  have hbytes : coveredBytes P f.seq f.payload = [P.sof] ++ le16 f.dl ++ [f.seq] ++ [f.hc] ++ encPayload P f.payload := by
    rw [coveredBytes, hlen, headerBytes, hsum, headerPrefix]
  refine eq_of_sameFrame ⟨hlen, rfl, ?_, ?_, rfl⟩ hd.symm
  · show headerChecksum P (payloadLength P f.payload) f.seq = f.hc
    rw [hlen, hsum]
  · show c16 P (coveredBytes P f.seq f.payload) = f.tail
    rw [hbytes, htail]

/-- Fresh frames with the same bytes are the same frame: the parser gives each back from them (R124). -/
theorem frameBytes_injective {P : Params} {f g : Frame} (hf : FrameInv P f) (hg : FrameInv P g) (hfd : f.dirty = false)
    (hgd : g.dirty = false) (h : frameBytes P f = frameBytes P g) : f = g := by
  have parsed {k : Frame} (hk : FrameInv P k) (hd : k.dirty = false) : parseFrame P (frameBytes P k) = .ok k :=
    hk.recompute_eq_self hd ▸ parseFrame_frameBytes (q := k.seq) hk.typed hk.raw hk.len.2
  exact Except.ok.inj ((parsed hf hfd).symm.trans ((congrArg (parseFrame P) h).trans (parsed hg hgd)))

/-- What SERIALIZE_FRAME gives for the Fresh frame of a sound state: the bytes of that frame (R122). -/
theorem serializeFrame_bytes_fresh {s t : State} {f : Frame} {b : Bytes} (hinv : s.Inv) (hs : s.slot = .held f)
    (hd : f.dirty = false) (h : exec .serializeFrame s = .next t)
    (hb : t.results.head? = some (okResponse (some b) none)) : b = frameBytes s.params f := by
  obtain ⟨k, hk, rfl⟩ := serializeFrame_bytes h hb
  obtain rfl : f = k := Slot.held.inj (hs.symm.trans hk)
  rw [(hinv f hs).recompute_eq_self hd]

/-- Settles O23: both results are the bytes of the frames held; equal frames have equal bytes, and a frame is read back from
its bytes. -/
theorem freshFramesEqualIffSameBytes : Obligations.FreshFramesEqualIffSameBytes := by
  intro P s u t v f g b c hsP huP hsInv huInv hs hu hf hg ht hb hv hc
  obtain rfl := serializeFrame_bytes_fresh hsInv hs hf ht hb
  obtain rfl := serializeFrame_bytes_fresh huInv hu hg hv hc
  rw [hsP, huP]
  constructor
  · intro hsame
    rw [eq_of_sameFrame hsame (hf.trans hg.symm)]
  · intro hbytes
    rw [frameBytes_injective (hsP ▸ hsInv f hs) (huP ▸ huInv g hu) hf hg hbytes]
    exact ⟨rfl, rfl, rfl, rfl, rfl⟩

end Sys2Proof.Machine
end

section
/-! The header object (R62, R93). -/

namespace Sys2Proof.Machine

/-- A pseudo-operation that stands for one operation is that operation (R62). -/
theorem runSequence_singleton (i : Instr) (s : State) : runSequence [i] s = exec i s := by
  obtain ⟨t, _, ht, _⟩ := exec_one_result i s
  simp only [runSequence, ht, ite_self]

theorem discardResult_answer (s : State) (r : Response) :
    discardResult (.next (s.answer r)) = .next (s.answer { r with rBuf := none, rVal := none }) := rfl

/-- PARSE_HEADER answers and writes nothing else (R90). -/
theorem exec_parseHeader_answers (buf : Bytes) (s : State) :
    ∃ r, exec (.parseHeader buf) s = .next (s.answer r) := by
  cases hp : parseHeader s.params buf with
  | error e => exact ⟨_, exec_parseHeader_error hp⟩
  | ok h => exact ⟨_, exec_parseHeader_ok hp⟩

theorem parseHeader_eq_ok_of_result {buf : Bytes} {s t : State} {h : Header} (hexec : exec (.parseHeader buf) s = .next t)
    (hr : t.results.head? = some (okResponse none (some (.header h)))) : parseHeader s.params buf = .ok h := by
  cases hp : parseHeader s.params buf with
  | error e =>
    obtain rfl := Host.Outcome.next.inj ((exec_parseHeader_error hp).symm.trans hexec)
    exact absurd (Option.some.inj hr).symm (okResponse_ne_failResponse _ _ _)
  | ok k =>
    obtain rfl := Host.Outcome.next.inj ((exec_parseHeader_ok hp).symm.trans hexec)
    have hval : some (ResultValue.header k) = some (.header h) := congrArg Response.rVal (Option.some.inj hr)
    cases hval
    rfl

/-- Settles O55: the parser takes the five bytes its header serializes to, whose fifth is the checksum; PARSE_HEADER alone
is behind CHECK_HEADER, which drops the values of its result. -/
theorem headerObject : Obligations.HeaderObject := by
  refine ⟨fun buf s t h hexec hr => ?_, fun buf s t r hexec hr => ?_⟩
  · have hparse : exec (.parseHeader buf) s = .next t := (runSequence_singleton _ s).symm.trans hexec
    obtain ⟨hhc, rest, rfl⟩ := parseHeader_ok (parseHeader_eq_ok_of_result hparse hr)
    refine ⟨?_, ?_⟩
    · have htake : (headerBytes s.params h.dl h.seq ++ rest).take 5 = headerBytes s.params h.dl h.seq :=
        List.take_left' (headerBytes_length ..)
      rw [htake]
      exact runSequence_singleton (.serializeHeader h.dl h.seq) s
    · rw [headerBytes_eq, hhc]
      rfl
  · obtain ⟨r', hr'⟩ := exec_parseHeader_answers buf s
    obtain rfl := Host.Outcome.next.inj (hr'.symm.trans hexec)
    obtain rfl : r' = r := Option.some.inj hr
    show discardResult (runSequence [.parseHeader buf] s) = _
    rw [runSequence_singleton, hr']
    exact discardResult_answer s r'

end Sys2Proof.Machine
end

section
/-! The checksum engines (R80, R81). -/

namespace Sys2Proof.Machine

/-- A value result leaves every field but the host's results as it was. -/
theorem finishValue_eq (s : State) (v : ResultValue) :
    s.finishValue v = .next (s.answer (okResponse none (some v))) := by
  rw [State.finishValue, finish_eq, withSlot_self]

theorem exec_checksum8 (buf : Bytes) (s : State) : exec (.checksum8 buf) s = s.finishValue (.u8 (c8 s.params buf)) := rfl

theorem exec_checksum16 (buf : Bytes) (s : State) :
    exec (.checksum16 buf) s = s.finishValue (.u16 (c16 s.params buf)) := rfl

/-- Of the parameters, `c8` reads the 8-bit algorithm alone (R5, R82). -/
theorem c8_congr {P Q : Params} (h : P.alg8 = Q.alg8) (b : Bytes) : c8 P b = c8 Q b := by rw [c8, c8, h]

/-- Of the parameters, `c16` reads the 16-bit algorithm alone (R6, R82). -/
theorem c16_congr {P Q : Params} (h : P.alg16 = Q.alg16) (b : Bytes) : c16 P b = c16 Q b := by rw [c16, c16, h]

/-- Settles O1: the row of R58 names `A_BUF` alone; the arm is a value result in every state, and the value is read from
the buffer and the 8-bit algorithm. -/
theorem checksum8Result : Obligations.Checksum8Result := by
  refine ⟨fun r hop => ?_, fun buf s => ?_, fun buf s u halg => c8_congr halg buf⟩
  · have hbuf : agreeOn (formatOf (.checksum8 r.aBuf)) r (encode (.checksum8 r.aBuf)) := rfl
    exact decode_of_agreeOn hop hbuf
  · rw [exec_checksum8, finishValue_eq, State.answer]

/-- Settles O2, as O1 with the 16-bit algorithm. -/
theorem checksum16Result : Obligations.Checksum16Result := by
  refine ⟨fun r hop => ?_, fun buf s => ?_, fun buf s u halg => c16_congr halg buf⟩
  · have hbuf : agreeOn (formatOf (.checksum16 r.aBuf)) r (encode (.checksum16 r.aBuf)) := rfl
    exact decode_of_agreeOn hop hbuf
  · rw [exec_checksum16, finishValue_eq, State.answer]

end Sys2Proof.Machine
end

section
/-! The header codec (R90 to R92). -/

namespace Sys2Proof.Machine

/-- A byte result leaves every field but the host's results as it was. -/
theorem finishBytes_eq (s : State) (b : Bytes) :
    s.finishBytes b = .next (s.answer (okResponse (some b) none)) := by
  rw [State.finishBytes, finish_eq, withSlot_self]

theorem exec_serializeHeader (dl : U16) (q : Byte) (s : State) :
    exec (.serializeHeader dl q) s = .next (s.answer (okResponse (some (headerBytes s.params dl q)) none)) :=
  finishBytes_eq s _

theorem headerChecksum_eq (P : Params) (dl : U16) (q : Byte) :
    headerChecksum P dl q = c8 P [P.sof, lowByte dl, highByte dl, q] := by rw [headerChecksum, headerPrefix_eq]

theorem headerBytes_append_take (P : Params) (dl : U16) (q : Byte) (rest : Bytes) :
    (headerBytes P dl q ++ rest).take 5 = headerBytes P dl q := List.take_left' (headerBytes_length P dl q)

/-- PARSE_HEADER of the five bytes of a header succeeds with its fields (R92). -/
theorem exec_parseHeader_headerBytes (dl : U16) (q : Byte) (s : State) :
    exec (.parseHeader (headerBytes s.params dl q)) s =
      s.finishValue (.header { dl := dl, seq := q, hc := headerChecksum s.params dl q }) := by
  have hparse := parseHeader_headerBytes s.params dl q []
  rw [List.append_nil] at hparse
  exact exec_parseHeader_ok hparse

/-- Settles O5: one half is that the parser undoes the serializer under the same parameters; for the other, a buffer that
parses begins with the header bytes of its fields, and these are its first five bytes. -/
theorem headerRoundTrip : Obligations.HeaderRoundTrip := by
  refine ⟨fun dl q s t u b hexec hb hP => ?_, fun buf s t h hexec hr => ?_⟩
  · obtain rfl := serializeHeader_bytes hexec hb
    rw [← hP, exec_parseHeader_headerBytes, finishValue_eq, headerChecksum_eq, State.answer]
  · obtain ⟨_, rest, rfl⟩ := parseHeader_ok (parseHeader_eq_ok_of_result hexec hr)
    rw [exec_serializeHeader, headerBytes_append_take, State.answer]

theorem parseHeader_cons_of_ne_sof {P : Params} {b0 b1 b2 b3 b4 : Byte} {rest : Bytes} (h0 : b0 ≠ P.sof) :
    parseHeader P (b0 :: b1 :: b2 :: b3 :: b4 :: rest) = .error (.raise .badStartMarker .hdr) := by
  rw [parseHeader_cons, if_pos h0]

theorem parseHeader_cons_of_c8_ne {P : Params} {b0 b1 b2 b3 b4 : Byte} {rest : Bytes} (h0 : b0 = P.sof)
    (h4 : c8 P [b0, b1, b2, b3] ≠ b4) :
    parseHeader P (b0 :: b1 :: b2 :: b3 :: b4 :: rest) = .error (.raise .crc8Mismatch .hdr) := by
  rw [parseHeader_cons, if_neg (not_not.mpr h0), if_pos h4]

theorem parseHeader_cons_of_c8_eq {P : Params} {b0 b1 b2 b3 b4 : Byte} {rest : Bytes} (h0 : b0 = P.sof)
    (h4 : c8 P [b0, b1, b2, b3] = b4) :
    parseHeader P (b0 :: b1 :: b2 :: b3 :: b4 :: rest) = .ok { dl := assemble16 b1 b2, seq := b3, hc := b4 } := by
  rw [parseHeader_cons, if_neg (not_not.mpr h0), if_neg (not_not.mpr h4)]

/-- Settles O3: in each case the operation answers what the parser answers, and the parser checks length, marker and
checksum in this order. -/
theorem parseHeaderOutcomes : Obligations.ParseHeaderOutcomes := by
  refine fun s => ⟨fun buf hshort => ?_, fun b0 b1 b2 b3 b4 rest =>
    ⟨fun h0 => ?_, fun h0 h4 => ?_, fun h0 h4 => ?_⟩⟩
  · exact exec_parseHeader_error (parseHeader_short hshort)
  · exact exec_parseHeader_error (parseHeader_cons_of_ne_sof h0)
  · exact exec_parseHeader_error (parseHeader_cons_of_c8_ne h0 h4)
  · rw [exec_parseHeader_ok (parseHeader_cons_of_c8_eq h0 h4), finishValue_eq, State.answer]

/-- Settles O4: the row of R58 names `A_DL` and `A_SEQ` alone; the arm is a byte result in every state, the header bytes
of the operands. -/
theorem serializeHeaderResult : Obligations.SerializeHeaderResult := by
  refine ⟨fun r hop => ?_, fun dl q s => ?_⟩
  · have hoperands : agreeOn (formatOf (.serializeHeader r.aDl r.aSeq)) r (encode (.serializeHeader r.aDl r.aSeq)) :=
      ⟨rfl, rfl⟩
    exact decode_of_agreeOn hop hoperands
  · rw [exec_serializeHeader, headerBytes_eq, headerChecksum_eq, State.answer]

end Sys2Proof.Machine
end

section
/-! The fixed-layout schema class (R105), in sums, ranges and lists. -/

namespace Sys2Proof.Machine

/-- The layouts of R105 within S4. -/
theorem layoutOk_iff (fs : List LayoutField) :
    layoutOk fs = true ↔ (∀ f ∈ fs, 1 ≤ f.width) ∧ (fs.map LayoutField.width).sum ≤ 65533 := by
  simp only [layoutOk, layoutWidth_eq_sum, Bool.and_eq_true, List.all_eq_true, decide_eq_true_eq]

theorem schemaOf_layout {fs : List LayoutField} (h : layoutOk fs = true) :
    schemaOf (.layout fs) = some (layoutSchema fs (layoutOk_width h)) := dif_pos h

theorem schemaOf_layout_eq_none {fs : List LayoutField} (h : ¬ layoutOk fs = true) :
    schemaOf (.layout fs) = none := dif_neg h

/-- The values of a layout: one number in range per field. -/
theorem layoutIsVal_iff (fs : List LayoutField) (v : Value) :
    layoutIsVal fs v = true ↔ v.length = fs.length ∧ ∀ q ∈ fs.zip v, q.2 < 2 ^ (8 * q.1.width) := by
  induction fs generalizing v with
  | nil => cases v <;> simp [layoutIsVal]
  | cons f fs ih =>
    cases v with
    | nil => simp [layoutIsVal]
    | cons x v =>
      simp only [layoutIsVal, Bool.and_eq_true, decide_eq_true_eq, ih, List.length_cons, Nat.add_right_cancel_iff,
        List.zip_cons_cons, List.forall_mem_cons]
      exact and_left_comm

/-- The bytes of a layout: those of its fields one after the other, with nothing between them. -/
theorem layoutEnc_eq_flatMap (fs : List LayoutField) (v : Value) :
    layoutEnc fs v = (fs.zip v).flatMap fun q => leBytes q.1.width q.2 := by
  induction fs generalizing v with
  | nil => rfl
  | cons f fs ih =>
    cases v with
    | nil => rfl
    | cons x v => rw [layoutEnc, ih, List.zip_cons_cons, List.flatMap_cons]

/-- Settles O9: a layout of R105 stands for `layoutSchema`, whose width, values and bytes the lemmas above say in the
statement's terms; the other two clauses are the two ways to miss `layoutOk`. -/
theorem fixedLayoutSchema : Obligations.FixedLayoutSchema := by
  refine ⟨fun fs hpos hsum => ?_, fun fs hzero => ?_, fun fs hsum => ?_⟩
  · have hok : layoutOk fs = true := (layoutOk_iff fs).mpr ⟨hpos, hsum⟩
    refine ⟨_, schemaOf_layout hok, layoutWidth_eq_sum fs, layoutIsVal_iff fs, fun v _ => ?_⟩
    simp only [← leBytes_eq_map]
    exact layoutEnc_eq_flatMap fs v
  · refine schemaOf_layout_eq_none fun hok => ?_
    obtain ⟨f, hf, hw⟩ := hzero
    have hpos : 1 ≤ f.width := ((layoutOk_iff fs).mp hok).1 f hf
    omega
  · refine schemaOf_layout_eq_none fun hok => ?_
    exact absurd ((layoutOk_iff fs).mp hok).2 (Nat.not_le.mpr hsum)

end Sys2Proof.Machine
end

section
/-! The registry lookup and the serialized form of a payload (R63, R100, R102). -/

namespace Sys2Proof.Machine

/-- The lookup reads the rows of the id alone, and of these the first (R102). -/
theorem lookup_eq_head?_filter (P : Params) (id : U16) :
    lookup P id = (P.registry.filter fun r => r.id = id).head?.bind fun r => schemaOf r.schema := by
  have hfind : P.registry.find? (fun r => r.id == id) = (P.registry.filter fun r => r.id = id).head? := by
    rw [List.head?_filter]
    rfl
  rw [← hfind, lookup]
  cases P.registry.find? (fun r => r.id == id) <;> rfl

/-- Settles O8: by `lookup_eq_head?_filter` the answer depends on the rows of the id; where there are none nothing is
found, and an only row is the first. -/
theorem lookupExactMatch : Obligations.LookupExactMatch := by
  refine ⟨fun P Q id hrows => ?_, fun P id hnone => ?_, fun P r hr honly => ?_⟩
  · rw [lookup_eq_head?_filter, lookup_eq_head?_filter, hrows]
  · have hrows : P.registry.filter (fun r => r.id = id) = [] :=
      List.filter_eq_nil_iff.mpr fun r hr => by simpa using hnone r hr
    rw [lookup_eq_head?_filter, hrows]
    rfl
  · have hmem : r ∈ P.registry.filter fun q => q.id = r.id := List.mem_filter.mpr ⟨hr, decide_eq_true rfl⟩
    obtain ⟨q, hq⟩ := Option.isSome_iff_exists.mp (List.isSome_head?.mpr (List.ne_nil_of_mem hmem))
    obtain ⟨hqP, hqid⟩ := List.mem_filter.mp (List.mem_of_mem_head? hq)
    obtain rfl : q = r := honly q hqP (of_decide_eq_true hqid)
    rw [lookup_eq_head?_filter, hq, Option.bind_some]

theorem encPayload_take_two (P : Params) (p : Payload) : (encPayload P p).take 2 = le16 (cmdId p) := by
  obtain ⟨rest, hrest⟩ := encPayload_eq P p
  rw [hrest, List.take_left' (le16_length _)]

/-- Settles O7: what `payloadTyped`, `encPayload` and `cmdId` give on each variant; every serialized form begins with the
two bytes of its id. -/
theorem payloadSerializedForm : Obligations.PayloadSerializedForm := by
  refine fun P => ⟨fun id v => payloadTyped_struct, fun id data => rfl, fun id v S hS hv => ?_, fun id data => ?_,
    fun id v => rfl, fun id data => rfl, fun p => ⟨encPayload_length P p, ?_⟩⟩
  · rw [encPayload_struct hS hv, le16_eq]
  · rw [encPayload_raw, le16_eq]
  · rw [encPayload_take_two, le16_eq]

end Sys2Proof.Machine
end

section
/-! The two operations of the payload dispatcher (R103, R104, R106, R107). -/

namespace Sys2Proof.Machine

theorem parsePayload_unregistered {P : Params} {lo hi : Byte} (h : lookup P (assemble16 lo hi) = none) (rest : Bytes) :
    parsePayload P (lo :: hi :: rest) = .ok (.raw (assemble16 lo hi) rest) := by
  simp only [parsePayload_cons, h]

theorem parsePayload_registered {P : Params} {lo hi : Byte} {S : Schema} (h : lookup P (assemble16 lo hi) = some S)
    {rest : Bytes} (hlen : rest.length = S.width) :
    parsePayload P (lo :: hi :: rest) = .ok (.struct (assemble16 lo hi) (S.dec rest)) := by
  simp only [parsePayload_cons, h, if_neg (not_not.mpr hlen)]

theorem parsePayload_lengthMismatch {P : Params} {lo hi : Byte} {S : Schema}
    (h : lookup P (assemble16 lo hi) = some S) {rest : Bytes} (hlen : rest.length ≠ S.width) :
    parsePayload P (lo :: hi :: rest) = .error (.raise .schemaLengthMismatch .pay) := by
  simp only [parsePayload_cons, h, if_pos hlen]

/-- A PARSE_PAYLOAD that succeeds answers the payload and leaves every field but the host's results as it was. -/
theorem exec_parsePayload_answer {s : State} {buf : Bytes} {p : Payload} (h : parsePayload s.params buf = .ok p) :
    exec (.parsePayload buf) s = .next (s.answer (okResponse none (some (.payload p)))) := by
  rw [exec_parsePayload_ok h, finishValue_eq]

/-- The value an operation answers is the one its parser gave. -/
theorem ok_of_onParsed_finishValue {α : Type} {s t : State} {r : Except Failure α} {val : α → ResultValue}
    (hval : Function.Injective val) {a : α} (h : s.onParsed r (fun a => s.finishValue (val a)) = .next t)
    (ht : t.results.head? = some (okResponse none (some (val a)))) : r = .ok a := by
  cases r with
  | error e =>
    obtain rfl := Host.Outcome.next.inj h
    exact absurd (Option.some.inj ht).symm (okResponse_ne_failResponse _ _ _)
  | ok b =>
    obtain rfl := Host.Outcome.next.inj h
    have hb : some (val b) = some (val a) := congrArg Response.rVal (Option.some.inj ht)
    rw [hval (Option.some.inj hb)]

/-- Settles O12: the dispatcher undoes `encPayload` on what `INV_RAW` admits, and a payload it gives has the buffer for
its bytes. -/
theorem payloadRoundTrip : Obligations.PayloadRoundTrip := by
  refine ⟨fun p s htyped hraw => ?_, fun buf s t p hexec hr => ?_⟩
  · exact exec_parsePayload_answer (parsePayload_encPayload htyped hraw)
  · rw [exec_parsePayload_eq] at hexec
    have hp : parsePayload s.params buf = .ok p := ok_of_onParsed_finishValue (fun _ _ => ResultValue.payload.inj) hexec hr
    obtain ⟨_, _, hbytes⟩ := parsePayload_ok hp
    exact hbytes

/-- Settles O10: the operation answers what the dispatcher answers: room for the id first, then the lookup, then the
schema's width. -/
theorem parsePayloadOutcomes : Obligations.ParsePayloadOutcomes := by
  refine fun s => ⟨fun buf hshort => ?_, fun lo hi rest => ⟨fun S hS hlen => ?_, fun S hS hlen => ?_, fun hnone => ?_⟩⟩
  · exact exec_parsePayload_error (parsePayload_short hshort)
  · exact exec_parsePayload_error (parsePayload_lengthMismatch hS hlen)
  · exact exec_parsePayload_answer (parsePayload_registered hS hlen)
  · exact exec_parsePayload_answer (parsePayload_unregistered hnone rest)

/-- Settles O13: the outcomes of O10 for no byte after the id. -/
theorem emptyPayloadBoundary : Obligations.EmptyPayloadBoundary := by
  intro lo hi s
  obtain ⟨_, houtcomes⟩ := parsePayloadOutcomes s
  obtain ⟨hmismatch, hstruct, hraw⟩ := houtcomes lo hi []
  exact ⟨hraw, fun S hS => ⟨fun hW => hstruct S hS hW.symm, fun hW => hmismatch S hS hW.ne⟩⟩

theorem exec_serializePayload_typed {s : State} {p : Payload} (h : payloadTyped s.params p = true) :
    exec (.serializePayload p) s = .next (s.answer (okResponse (some (encPayload s.params p)) none)) :=
  (if_pos h).trans (finishBytes_eq s _)

theorem exec_serializePayload_untyped {s : State} {p : Payload} (h : payloadTyped s.params p = false) :
    exec (.serializePayload p) s = s.fail (.refuse .illegal) :=
  if_neg (ne_true_of_eq_false h)

/-- Settles O11: a `Payload` is emitted in its serialized form (O7), what is none is refused. -/
theorem serializePayloadOutcomes : Obligations.SerializePayloadOutcomes := by
  refine fun s => ⟨fun id v S hS hv => ?_, fun id data => ?_, fun p huntyped => exec_serializePayload_untyped huntyped⟩
  · have htyped : payloadTyped s.params (.struct id v) = true := payloadTyped_struct.mpr ⟨S, hS, hv⟩
    rw [exec_serializePayload_typed htyped, encPayload_struct hS hv, le16_eq, State.answer]
  · have htyped : payloadTyped s.params (.raw id data) = true := rfl
    rw [exec_serializePayload_typed htyped, encPayload_raw, le16_eq, State.answer]

end Sys2Proof.Machine
end

section
/-! RECOMPUTE and SERIALIZE_FRAME on the frame held (R121, R122). -/

namespace Sys2Proof.Machine

/-- The frame RECOMPUTE derives, its header bytes written out (R51, R121). -/
theorem recompute_eq (P : Params) (f : Frame) {dl : U16} (hdl : dl = payloadLength P f.payload) {h4 : Bytes}
    (hh4 : h4 = [P.sof, lowByte dl, highByte dl, f.seq]) :
    recompute P f =
      { dl := dl, seq := f.seq, hc := c8 P h4, tail := c16 P (h4 ++ [c8 P h4] ++ encPayload P f.payload),
        payload := f.payload, dirty := false } := by
  subst hdl hh4
  rw [← headerPrefix_eq]
  rfl

/-- A frame's bytes, the tail low byte first (R122). -/
theorem frameBytes_eq (P : Params) (f : Frame) :
    frameBytes P f = headerBytes P f.dl f.seq ++ encPayload P f.payload ++ [lowByte f.tail, highByte f.tail] := by
  rw [frameBytes, le16_eq]

/-- Settles O16: the slot takes the frame `recompute` gives. -/
theorem recomputeResult : Obligations.RecomputeResult := by
  rintro s f pb h4 dl hs rfl hdl hh4
  rw [exec_recompute_held hs, recompute_eq s.params f hdl hh4]
  rfl

/-- Settles O17: the slot takes the frame `recompute` gives, and the host the bytes of that frame. -/
theorem serializeFrameResult : Obligations.SerializeFrameResult := by
  rintro s f pb h5 dl hc tail hs rfl hdl rfl rfl rfl
  rw [exec_serializeFrame_held hs, frameBytes_eq, recompute_eq s.params f hdl rfl, headerBytes_eq, headerChecksum_eq]
  rfl

end Sys2Proof.Machine
end

section
/-! The frame round trip (R124). -/

namespace Sys2Proof.Machine

/-- A PARSE_FRAME after which the host holds a success was one of a sound frame, which it loaded (R120). -/
theorem exec_parseFrame_of_lastOk {buf : Bytes} {s t : State} (h : exec (.parseFrame buf) s = .next t)
    (ht : lastOk t = true) :
    ∃ f, parseFrame s.params buf = .ok f ∧ t = (s.withSlot (.held f)).answer (okResponse none none) := by
  obtain ⟨f, hf⟩ := parseFrame_ok_of_lastOk h ht
  exact ⟨f, hf, Host.Outcome.next.inj (h.symm.trans (exec_parseFrame_ok hf))⟩

theorem lastOk_of_head? {s : State} {b : Option Bytes} {v : Option ResultValue}
    (h : s.results.head? = some (okResponse b v)) : lastOk s = true := by
  obtain ⟨rs, hrs⟩ := List.head?_eq_some_iff.mp h
  simp [lastOk, hrs]

/-- The parser gives back the frame RECOMPUTE derives from a payload that can stand in the slot (R124). -/
theorem Storable.parseFrame_recompute {P : Params} {f : Frame} (hp : Storable P f.payload) :
    parseFrame P (frameBytes P (recompute P f)) = .ok (recompute P f) :=
  parseFrame_frameBytes hp.typed hp.raw hp.fits

/-- A parsed frame is the one RECOMPUTE derives from it, so RECOMPUTE leaves it as it is (R125). -/
theorem recompute_of_parseFrame {P : Params} {buf : Bytes} {f : Frame} (h : parseFrame P buf = .ok f) :
    recompute P f = f := by
  obtain ⟨_, hfresh, _⟩ := parseFrame_ok h
  exact hfresh.symm

/-- Settles O19: one way, the bytes emitted are those of the recomputed frame, which the parser gives back; the other way,
the frame loaded is already the recomputed one, and the buffer parsed is its bytes. -/
theorem frameRoundTrip : Obligations.FrameRoundTrip := by
  refine ⟨fun s f hInv hs => ?_, fun buf s t hexec hr => ?_⟩
  · refine ⟨_, recompute s.params f, _, exec_serializeFrame_held hs, rfl, rfl, fun u hu => ?_⟩
    have hparse := (hInv f hs).storable.parseFrame_recompute
    rw [← hu] at hparse ⊢
    exact ⟨_, ⟨rfl, rfl, rfl, rfl, rfl⟩, exec_parseFrame_ok hparse⟩
  · obtain ⟨f, hf, rfl⟩ := exec_parseFrame_of_lastOk hexec (lastOk_of_head? hr)
    refine ⟨_, exec_serializeFrame_held rfl, ?_⟩
    obtain ⟨hbytes, _⟩ := parseFrame_ok hf
    show some (okResponse (some (frameBytes s.params (recompute s.params f))) none) = _
    rw [recompute_of_parseFrame hf, ← hbytes]

end Sys2Proof.Machine
end

section
/-! PARSE_FRAME: every outcome (R120, R171 to R176, R179). -/

namespace Sys2Proof.Machine

section ExactLength
variable {P : Params} {h5 pay : Bytes} {t0 t1 : Byte} {h : Header}

/-- Length exact, tail wrong (R120 step 3). -/
theorem parseFrame_tailMismatch (h5l : h5.length = 5) (hh : parseHeader P (h5 ++ pay ++ [t0, t1]) = .ok h)
    (hl : pay.length = h.dl.toNat) (ht : c16 P (h5 ++ pay) ≠ assemble16 t0 t1) :
    parseFrame P (h5 ++ pay ++ [t0, t1]) = .error (.raise .crc16Mismatch .frm) := by
  rw [parseFrame_exact h5l hh hl, if_pos ht]

/-- Tail right: the frame parser fails as the dispatcher does (R120 step 4). -/
theorem parseFrame_payloadError (h5l : h5.length = 5) (hh : parseHeader P (h5 ++ pay ++ [t0, t1]) = .ok h)
    (hl : pay.length = h.dl.toNat) (ht : c16 P (h5 ++ pay) = assemble16 t0 t1) {e : Failure}
    (hp : parsePayload P pay = .error e) : parseFrame P (h5 ++ pay ++ [t0, t1]) = .error e := by
  rw [parseFrame_exact h5l hh hl, if_neg (not_not.mpr ht), hp]

/-- All checks passed (R120 step 5). -/
theorem parseFrame_loads (h5l : h5.length = 5) (hh : parseHeader P (h5 ++ pay ++ [t0, t1]) = .ok h)
    (hl : pay.length = h.dl.toNat) (ht : c16 P (h5 ++ pay) = assemble16 t0 t1) {p : Payload}
    (hp : parsePayload P pay = .ok p) :
    parseFrame P (h5 ++ pay ++ [t0, t1]) =
      .ok { dl := h.dl, seq := h.seq, hc := h.hc, tail := assemble16 t0 t1, payload := p, dirty := false } := by
  rw [parseFrame_exact h5l hh hl, if_neg (not_not.mpr ht), hp]

end ExactLength

/-- Settles O14: the operation fails as the frame parser does, whose checks are, in order, those of the header parser,
the length, the tail and the dispatcher's. -/
theorem parseFrameErrors : Obligations.ParseFrameErrors := by
  refine fun s => ⟨fun buf hshort => ?_, fun b0 b1 b2 b3 b4 rest => ⟨fun h0 => ?_, fun h0 h4 => ?_,
    fun h0 h4 hlen => ?_, fun h0 h4 hlen => ?_, fun pay t0 t1 h0 h4 hrest hpay => ?_⟩⟩
  · exact exec_parseFrame_error (parseFrame_header_error (parseHeader_short hshort))
  · exact exec_parseFrame_error (parseFrame_header_error (parseHeader_cons_of_ne_sof h0))
  · exact exec_parseFrame_error (parseFrame_header_error (parseHeader_cons_of_c8_ne h0 h4))
  · refine exec_parseFrame_error (parseFrame_tooShort (parseHeader_cons_of_c8_eq h0 h4) ?_)
    simp only [assemble16_toNat, List.length_cons]
    omega
  · refine exec_parseFrame_error (parseFrame_trailing (parseHeader_cons_of_c8_eq h0 h4) ?_)
    simp only [assemble16_toNat, List.length_cons]
    omega
  · subst hrest
    have hh := parseHeader_cons_of_c8_eq (rest := pay ++ [t0, t1]) h0 h4
    have hl : pay.length = (assemble16 b1 b2).toNat := hpay.trans (assemble16_toNat b1 b2).symm
    refine ⟨fun ht => ?_, fun ht hshort => ?_, fun lo hi fields S ht hsplit hS hw => ?_⟩
    · exact exec_parseFrame_error (parseFrame_tailMismatch (h5 := [b0, b1, b2, b3, b4]) rfl hh hl ht)
    · exact exec_parseFrame_error
        (parseFrame_payloadError (h5 := [b0, b1, b2, b3, b4]) rfl hh hl ht (parsePayload_short hshort))
    · subst hsplit
      exact exec_parseFrame_error
        (parseFrame_payloadError (h5 := [b0, b1, b2, b3, b4]) rfl hh hl ht (parsePayload_lengthMismatch hS hw))

/-- Settles O15: all checks pass, and the dispatcher gives the payload of the variant the registry selects. -/
theorem parseFrameLoads : Obligations.ParseFrameLoads := by
  intro s b1 b2 b3 b4 lo hi t0 t1 fields h4 hpay ht
  have hh := parseHeader_cons_of_c8_eq (rest := lo :: hi :: fields ++ [t0, t1]) rfl h4
  have hl : (lo :: hi :: fields).length = (assemble16 b1 b2).toNat := hpay.trans (assemble16_toNat b1 b2).symm
  refine ⟨fun S hS hw => ?_, fun hnone => ?_⟩
  · exact exec_parseFrame_ok (parseFrame_loads rfl hh hl ht (parsePayload_registered hS hw))
  · exact exec_parseFrame_ok (parseFrame_loads rfl hh hl ht (parsePayload_unregistered hnone fields))

end Sys2Proof.Machine
end

section
/-! One flipped bit (R127). -/

namespace Sys2Proof.Machine

theorem flipBit_cons_of_lt (x : Byte) (b : Bytes) {k : Nat} (h : k < 8) : flipBit (x :: b) k = flipBit [x] k ++ b := by
  have hk : k / 8 = 0 := by omega
  simp only [flipBit, hk, List.modify_zero_cons, List.cons_append, List.nil_append]

theorem flipBit_cons_of_le (x : Byte) (b : Bytes) {k : Nat} (h : 8 ≤ k) : flipBit (x :: b) k = x :: flipBit b (k - 8) := by
  have hk : k / 8 = (k - 8) / 8 + 1 := by omega
  have hbit : k % 8 = (k - 8) % 8 := by omega
  rw [flipBit, hk, hbit, List.modify_succ_cons, flipBit]

/-- Flipping a bit of the first part. -/
theorem flipBit_append_left (a c : Bytes) {k : Nat} (h : k < 8 * a.length) : flipBit (a ++ c) k = flipBit a k ++ c := by
  induction a generalizing k with
  | nil => exact absurd h (Nat.not_lt_zero k)
  | cons x a ih =>
    rw [List.length_cons] at h
    rcases Nat.lt_or_ge k 8 with hk | hk
    · rw [List.cons_append, flipBit_cons_of_lt x (a ++ c) hk, flipBit_cons_of_lt x a hk, List.append_assoc]
    · rw [List.cons_append, flipBit_cons_of_le x _ hk, flipBit_cons_of_le x _ hk, ih (by omega), List.cons_append]

/-- Flipping a bit of the second part. -/
theorem flipBit_append_right (a c : Bytes) {k : Nat} (h : 8 * a.length ≤ k) :
    flipBit (a ++ c) k = a ++ flipBit c (k - 8 * a.length) := by
  induction a generalizing k with
  | nil => rfl
  | cons x a ih =>
    rw [List.length_cons] at h ⊢
    have hk : k - 8 * (a.length + 1) = k - 8 - 8 * a.length := by omega
    rw [List.cons_append, flipBit_cons_of_le x _ (by omega), ih (by omega), hk, List.cons_append]

theorem flipBit_ne {b : Bytes} {k : Nat} (h : k < 8 * b.length) : flipBit b k ≠ b := by
  obtain ⟨a, c, x, y, _, hxy, hb, hflip⟩ := flipBit_parts b k h
  intro heq
  rw [hflip, hb] at heq
  exact hxy (List.head_eq_of_cons_eq (List.append_cancel_left heq)).symm

/-- One byte with a bit flipped is another byte. -/
theorem flipBit_singleton (x : Byte) {k : Nat} (h : k < 8) : ∃ y, flipBit [x] k = [y] ∧ y ≠ x := by
  obtain ⟨y, hy⟩ := List.length_eq_one_iff.mp (flipBit_length [x] k)
  refine ⟨y, hy, fun hyx => flipBit_ne (b := [x]) (k := k) h ?_⟩
  rw [hy, hyx]

/-- Another bit pattern in the two bytes of a 16-bit value reads as another value. -/
theorem le16_flipBit (v : U16) {k : Nat} (h : k < 16) :
    ∃ t0 t1, flipBit (le16 v) k = [t0, t1] ∧ assemble16 t0 t1 ≠ v := by
  obtain ⟨t0, t1, ht⟩ := List.length_eq_two.mp (flipBit_length (le16 v) k)
  refine ⟨t0, t1, ht, fun hv => flipBit_ne (b := le16 v) (k := k) h ?_⟩
  rw [ht, ← hv, le16_assemble16]

section Header
variable {P : Params} (dl : U16) (q : Byte) (rest : Bytes) {k : Nat}

/-- A bit of the start marker (R127, first row; C1). -/
theorem parseHeader_flipBit_marker (hk : k < 8) :
    parseHeader P (flipBit (headerBytes P dl q ++ rest) k) = .error (.raise .badStartMarker .hdr) := by
  obtain ⟨y, hy, hne⟩ := flipBit_singleton P.sof hk
  rw [headerBytes_eq, List.cons_append, flipBit_cons_of_lt _ _ hk, hy]
  exact parseHeader_cons_of_ne_sof hne

/-- A bit of length or `seq` (R127, second row): the marker stands, and `c8` tells the four bytes from those summed. -/
theorem parseHeader_flipBit_fields (h8 : C8Detects1Bit P) (hlo : 8 ≤ k) (hhi : k < 32) :
    parseHeader P (flipBit (headerBytes P dl q ++ rest) k) = .error (.raise .crc8Mismatch .hdr) := by
  have hflip : flipBit (headerPrefix P dl q) k = P.sof :: flipBit (le16 dl ++ [q]) (k - 8) := flipBit_cons_of_le _ _ hlo
  obtain ⟨x1, x2, x3, hx⟩ := List.length_eq_three.mp (flipBit_length (le16 dl ++ [q]) (k - 8))
  have hsum : c8 P [P.sof, x1, x2, x3] ≠ headerChecksum P dl q := by
    rw [← hx, ← hflip]
    exact (h8 (headerPrefix P dl q) rfl k hhi).symm
  rw [headerBytes, List.append_assoc, flipBit_append_left _ _ hhi, hflip, hx]
  exact parseHeader_cons_of_c8_ne rfl hsum

/-- A bit of the header checksum (R127, third row). -/
theorem parseHeader_flipBit_checksum (hlo : 32 ≤ k) (hhi : k < 40) :
    parseHeader P (flipBit (headerBytes P dl q ++ rest) k) = .error (.raise .crc8Mismatch .hdr) := by
  have hprefix : 8 * (headerPrefix P dl q).length = 32 := rfl
  obtain ⟨y, hy, hne⟩ := flipBit_singleton (headerChecksum P dl q) (k := k - 32) (by omega)
  rw [headerBytes, List.append_assoc, flipBit_append_right _ _ (hprefix ▸ hlo), hprefix,
    flipBit_append_left _ _ (by rw [List.length_singleton]; omega), hy, headerPrefix_eq]
  exact parseHeader_cons_of_c8_ne rfl (headerChecksum_eq P dl q ▸ hne.symm)

end Header

/-- Settles O6: a header that parses is `headerBytes` of its fields, and the operation fails as the header parser does. -/
theorem headerBitFlip : Obligations.HeaderBitFlip := by
  intro b s t h k _ hexec hr
  obtain ⟨_, rest, rfl⟩ := parseHeader_ok (parseHeader_eq_ok_of_result hexec hr)
  refine ⟨fun hk => ?_, fun hlo hhi h8 => ?_, fun hlo hhi => ?_⟩
  · exact exec_parseHeader_error (parseHeader_flipBit_marker _ _ rest hk)
  · exact exec_parseHeader_error (parseHeader_flipBit_fields _ _ rest h8 hlo hhi)
  · exact exec_parseHeader_error (parseHeader_flipBit_checksum _ _ rest hlo hhi)

section Frame
variable {P : Params} {dl : U16} {q : Byte} {pay : Bytes} {tail : U16} {k : Nat}

/-- Header sound, length exact: a tail that is not `c16` of the bytes before it is reported (R120 step 3). -/
theorem parseFrame_headerBytes_tailMismatch (hl : pay.length = dl.toNat) {t0 t1 : Byte}
    (ht : c16 P (headerBytes P dl q ++ pay) ≠ assemble16 t0 t1) :
    parseFrame P (headerBytes P dl q ++ pay ++ [t0, t1]) = .error (.raise .crc16Mismatch .frm) := by
  have hh := parseHeader_headerBytes P dl q (pay ++ [t0, t1])
  rw [← List.append_assoc] at hh
  exact parseFrame_tailMismatch (headerBytes_length P dl q) hh hl ht

theorem headerBytes_append_length (P : Params) (dl : U16) (q : Byte) (pay : Bytes) :
    (headerBytes P dl q ++ pay).length = 5 + pay.length := by rw [List.length_append, headerBytes_length]

/-- A bit of the payload (R127, fourth row): the bytes covered are other ones, and the tail is still the old one. -/
theorem parseFrame_flipBit_payload (h16 : C16Detects1Bit P) (hl : pay.length = dl.toNat)
    (ht : c16 P (headerBytes P dl q ++ pay) = tail) (hlo : 40 ≤ k) (hhi : k < 8 * (5 + pay.length)) :
    parseFrame P (flipBit (headerBytes P dl q ++ pay ++ le16 tail) k) = .error (.raise .crc16Mismatch .frm) := by
  have hdl : dl.toNat < 65536 := dl.isLt
  have hcov := headerBytes_append_length P dl q pay
  have hdetect := h16 (headerBytes P dl q ++ pay) (by omega) (by omega) k (by omega)
  rw [flipBit_append_left _ _ (by omega)]
  rw [flipBit_append_right (headerBytes P dl q) pay hlo] at hdetect ⊢
  rw [le16_eq]
  refine parseFrame_headerBytes_tailMismatch ((flipBit_length _ _).trans hl) ?_
  rw [assemble16_low_high, ← ht]
  exact hdetect.symm

/-- A bit of the tail (R127, last row). -/
theorem parseFrame_flipBit_tail (hl : pay.length = dl.toNat) (ht : c16 P (headerBytes P dl q ++ pay) = tail)
    (hlo : 8 * (5 + pay.length) ≤ k) (hhi : k < 8 * (5 + pay.length + 2)) :
    parseFrame P (flipBit (headerBytes P dl q ++ pay ++ le16 tail) k) = .error (.raise .crc16Mismatch .frm) := by
  have hcov := headerBytes_append_length P dl q pay
  obtain ⟨t0, t1, hflip, hne⟩ := le16_flipBit tail (k := k - 8 * (5 + pay.length)) (by omega)
  rw [flipBit_append_right _ _ (by omega), hcov, hflip]
  exact parseFrame_headerBytes_tailMismatch hl (ht ▸ hne.symm)

end Frame

/-- A buffer that holds one sound frame: header, payload of the length the header gives, and the tail of both (R54). -/
theorem parseFrame_ok_bytes {P : Params} {buf : Bytes} {f : Frame} (h : parseFrame P buf = .ok f) :
    ∃ pay, pay.length = f.dl.toNat ∧ c16 P (headerBytes P f.dl f.seq ++ pay) = f.tail ∧
      buf = headerBytes P f.dl f.seq ++ pay ++ le16 f.tail := by
  obtain ⟨hbuf, hfresh, _, _, hdl⟩ := parseFrame_ok h
  refine ⟨encPayload P f.payload, hdl.symm, ?_, hbuf⟩
  rw [hfresh]
  rfl

/-- Settles O21: a frame accepted is header, payload and tail; a flip in the header fails as it does for PARSE_HEADER, one
after it leaves header and length and breaks the tail. -/
theorem frameBitFlip : Obligations.FrameBitFlip := by
  intro b s t k hexec hr
  obtain ⟨f, hf⟩ := parseFrame_ok_of_lastOk hexec (lastOk_of_head? hr)
  obtain ⟨pay, hl, ht, hb⟩ := parseFrame_ok_bytes hf
  have hlen : b.length = 5 + pay.length + 2 := by
    rw [hb, List.length_append, headerBytes_append_length, le16_length]
  have hheader : b = headerBytes s.params f.dl f.seq ++ (pay ++ le16 f.tail) := hb.trans (List.append_assoc ..)
  refine ⟨fun hk => ?_, fun hlo hhi h8 => ?_, fun hlo hhi => ?_, fun hlo hhi h16 => ?_, fun hlo hhi => ?_⟩
  · rw [hheader]
    exact exec_parseFrame_error (parseFrame_header_error (parseHeader_flipBit_marker _ _ _ hk))
  · rw [hheader]
    exact exec_parseFrame_error (parseFrame_header_error (parseHeader_flipBit_fields _ _ _ h8 hlo hhi))
  · rw [hheader]
    exact exec_parseFrame_error (parseFrame_header_error (parseHeader_flipBit_checksum _ _ _ hlo hhi))
  · rw [hb]
    exact exec_parseFrame_error (parseFrame_flipBit_payload h16 hl ht hlo (by omega))
  · rw [hb]
    exact exec_parseFrame_error (parseFrame_flipBit_tail hl ht (by omega) (by omega))

end Sys2Proof.Machine
end

section
/-! What a success leaves in the slot, operation by operation, and the state machine Empty, Fresh, Dirty (R123, R125). -/

namespace Sys2Proof.Machine

section Success
variable {s t : State}

theorem slot_of_finish {y : Slot} {b : Option Bytes} {v : Option ResultValue} (h : s.finish y b v = .next t) :
    t.slot = y := by
  obtain rfl := Host.Outcome.next.inj h
  rfl

/-- An operation that needs a frame and succeeds had one (R178). -/
theorem onFrame_of_lastOk {k : Frame → StepOutcome} (h : s.onFrame k = .next t) (ht : lastOk t = true) :
    ∃ f, s.slot = .held f ∧ k f = .next t := by
  rcases onFrame_cases s k with ⟨_, hfail⟩ | ⟨f, hs, hk⟩
  · simp [not_lastOk_of_fail (hfail.symm.trans h)] at ht
  · exact ⟨f, hs, hk.symm.trans h⟩

theorem onParsed_of_lastOk {α : Type} {r : Except Failure α} {k : α → StepOutcome} (h : s.onParsed r k = .next t)
    (ht : lastOk t = true) : ∃ a, r = .ok a ∧ k a = .next t := by
  cases r with
  | error e => simp [not_lastOk_of_fail h] at ht
  | ok a => exact ⟨a, rfl, h⟩

/-- A success passed the check of the operands. -/
theorem check_of_lastOk {c : Prop} [Decidable c] {o : StepOutcome} {e : Failure}
    (h : (if c then o else s.fail e) = .next t) (ht : lastOk t = true) : o = .next t := by
  by_cases hc : c
  · exact (if_pos hc).symm.trans h
  · simp [not_lastOk_of_fail ((if_neg hc).symm.trans h)] at ht

end Success

/-- The slot `y` that a success of the operation leaves where the slot was `x` (R123). -/
def LeavesSlot (P : Params) (x : Slot) (i : Instr) (y : Slot) : Prop :=
  match i with
  | .parseFrame _ | .newFrameStruct _ _ | .newFrameRaw _ _ => ∃ q p, y = .held (freshFrame P q p)
  | .recompute | .serializeFrame => ∃ f, x = .held f ∧ y = .held (recompute P f)
  | .setSeq _ | .setPayloadRaw _ | .setPayloadStruct _ => ∃ f g, x = .held f ∧ y = .held (markDirty g)
  | .getSeq | .getDataLength | .getHeaderChecksum | .getFrameTail | .getCmdId | .getPayloadRaw | .getPayloadStruct =>
    ∃ f, x = .held f ∧ y = x
  | .dropFrame => y = .empty
  | .checksum8 _ | .checksum16 _ | .parseHeader _ | .serializeHeader _ _ | .parsePayload _ | .serializePayload _ => y = x

theorem exec_leavesSlot {i : Instr} {s t : State} (h : exec i s = .next t) (ht : lastOk t = true) :
    LeavesSlot s.params s.slot i t.slot := by
  cases i
  case checksum8 | checksum16 | serializeHeader | dropFrame => exact slot_of_finish h
  case parseHeader buf =>
    rw [exec_parseHeader_eq] at h
    obtain ⟨_, _, hfinish⟩ := onParsed_of_lastOk h ht
    exact slot_of_finish hfinish
  case parsePayload buf =>
    rw [exec_parsePayload_eq] at h
    obtain ⟨_, _, hfinish⟩ := onParsed_of_lastOk h ht
    exact slot_of_finish hfinish
  case serializePayload pay => exact slot_of_finish (check_of_lastOk h ht)
  case parseFrame buf =>
    rw [exec_parseFrame_eq] at h
    obtain ⟨f, hf, hfinish⟩ := onParsed_of_lastOk h ht
    obtain ⟨_, hfresh, _⟩ := parseFrame_ok hf
    exact ⟨f.seq, f.payload, hfresh ▸ slot_of_finish hfinish⟩
  case newFrameStruct q pay => exact ⟨q, pay, slot_of_finish (check_of_lastOk h ht)⟩
  case newFrameRaw q buf =>
    rw [exec_newFrameRaw_eq] at h
    obtain ⟨p, _, hfinish⟩ := onParsed_of_lastOk (check_of_lastOk h ht) ht
    exact ⟨q, p, slot_of_finish hfinish⟩
  case recompute | serializeFrame =>
    obtain ⟨f, hs, hfinish⟩ := onFrame_of_lastOk h ht
    exact ⟨f, hs, slot_of_finish hfinish⟩
  case setSeq q =>
    obtain ⟨f, hs, hfinish⟩ := onFrame_of_lastOk h ht
    exact ⟨f, _, hs, slot_of_finish hfinish⟩
  case setPayloadRaw buf =>
    rw [exec_setPayloadRaw_eq] at h
    obtain ⟨f, hs, hchecked⟩ := onFrame_of_lastOk h ht
    obtain ⟨p, _, hfinish⟩ := onParsed_of_lastOk (check_of_lastOk hchecked ht) ht
    exact ⟨f, _, hs, slot_of_finish hfinish⟩
  case setPayloadStruct pay =>
    obtain ⟨f, hs, hfinish⟩ := onFrame_of_lastOk (check_of_lastOk h ht) ht
    exact ⟨f, _, hs, slot_of_finish hfinish⟩
  case getSeq | getDataLength | getHeaderChecksum | getFrameTail | getCmdId | getPayloadRaw | getPayloadStruct =>
    obtain ⟨f, hs, hfinish⟩ := onFrame_of_lastOk h ht
    exact ⟨f, hs, slot_of_finish hfinish⟩

/-- A failure leaves the slot alone (R180). -/
theorem slot_of_not_lastOk {i : Instr} {s t : State} (h : exec i s = .next t) (ht : lastOk t = false) :
    t.slot = s.slot := by
  rcases exec_failsOrFinishes i s with ⟨e, hfail⟩ | ⟨y, b, v, hfinish⟩
  · obtain rfl := Host.Outcome.next.inj (h.symm.trans hfail)
    rfl
  · obtain rfl := Host.Outcome.next.inj (h.symm.trans hfinish)
    simp at ht

theorem phaseOf_held_of_fresh {f : Frame} (h : f.dirty = false) : phaseOf (.held f) = .fresh := by simp [phaseOf, h]

theorem phaseOf_held_of_dirty {f : Frame} (h : f.dirty = true) : phaseOf (.held f) = .dirty := by simp [phaseOf, h]

theorem phaseOf_ne_empty_of_held {x : Slot} {f : Frame} (h : x = .held f) : phaseOf x ≠ .empty := by
  subst h
  cases hd : f.dirty with
  | false => rw [phaseOf_held_of_fresh hd]; decide
  | true => rw [phaseOf_held_of_dirty hd]; decide

/-- Settles O42: a failure keeps the slot; a success leaves what `LeavesSlot` says, whose phase is that of the table. -/
theorem freshDirtyMachine : Obligations.FreshDirtyMachine := by
  refine fun i s t hexec => ⟨slot_of_not_lastOk hexec, fun hok => ?_⟩
  have hleaves := exec_leavesSlot hexec hok
  cases i
  case parseFrame | newFrameStruct | newFrameRaw =>
    obtain ⟨q, p, hy⟩ := hleaves
    exact hy ▸ phaseOf_held_of_fresh rfl
  case setSeq | setPayloadRaw | setPayloadStruct =>
    obtain ⟨f, g, hx, hy⟩ := hleaves
    exact ⟨phaseOf_ne_empty_of_held hx, hy ▸ phaseOf_held_of_dirty rfl⟩
  case recompute | serializeFrame =>
    obtain ⟨f, hx, hy⟩ := hleaves
    exact ⟨phaseOf_ne_empty_of_held hx, hy ▸ phaseOf_held_of_fresh rfl⟩
  case getSeq | getDataLength | getHeaderChecksum | getFrameTail | getCmdId | getPayloadRaw | getPayloadStruct =>
    obtain ⟨f, hx, hy⟩ := hleaves
    exact ⟨phaseOf_ne_empty_of_held hx, hy⟩
  case dropFrame => exact congrArg phaseOf hleaves
  case checksum8 | checksum16 | parseHeader | serializeHeader | parsePayload | serializePayload => exact hleaves

/-- On a frame derived from its own payload and `seq`, RECOMPUTE answers and changes nothing (R125). -/
theorem exec_recompute_freshFrame {s : State} {q : Byte} {p : Payload}
    (h : s.slot = .held (freshFrame s.params q p)) :
    exec .recompute s = .next (s.answer (okResponse none none)) := by
  rw [exec_recompute_held h, recompute_freshFrame, ← h, State.finishSlot, finish_eq, withSlot_self]

/-- RECOMPUTE reads the parameters, the payload and `seq` alone (R121). -/
theorem recompute_congr (P : Params) {f g : Frame} (hp : f.payload = g.payload) (hq : f.seq = g.seq) :
    recompute P f = recompute P g := by rw [recompute, recompute, hp, hq]

/-- Settles O20: each of the five operations leaves a frame derived from its own payload and `seq`, on which RECOMPUTE
changes nothing; and the frame derived depends on these and the parameters alone. -/
theorem recomputeIdempotent : Obligations.RecomputeIdempotent := by
  refine ⟨fun i s t u hexec hok hi hslot hparams => ?_, fun s u t v f g hs hu hP hp hq ht hv => ?_⟩
  · have hleaves := exec_leavesSlot hexec hok
    rw [← hslot, ← exec_params hexec, ← hparams] at hleaves
    cases i
    case parseFrame | newFrameStruct | newFrameRaw =>
      obtain ⟨q, p, hy⟩ := hleaves
      exact exec_recompute_freshFrame hy
    case recompute | serializeFrame =>
      obtain ⟨f, _, hy⟩ := hleaves
      exact exec_recompute_freshFrame hy
    all_goals exact hi.elim
  · have htslot : t.slot = .held (recompute s.params f) := slot_of_finish ((exec_recompute_held hs).symm.trans ht)
    have hvslot : v.slot = .held (recompute u.params g) := slot_of_finish ((exec_recompute_held hu).symm.trans hv)
    refine ⟨?_, exec_params ht, _, htslot, recompute_payload _ f, recompute_seq _ f⟩
    rw [htslot, hvslot, hP, recompute_congr u.params hp hq]

end Sys2Proof.Machine
end

section
/-! Sequences of operations, and NEW_FRAME_BYTES (R62, R142). -/

namespace Sys2Proof.Machine

section Sequence
variable {i : Instr} {s t : State}

theorem runSequence_cons_of_lastOk (is : List Instr) (h : exec i s = .next t) (ht : lastOk t = true) :
    runSequence (i :: is) s = runSequence is t := by
  simp only [runSequence, h, ht, if_true]

/-- A step that fails ends the sequence with its own result (R62). -/
theorem runSequence_cons_of_not_lastOk (is : List Instr) (h : exec i s = .next t) (ht : lastOk t = false) :
    runSequence (i :: is) s = .next t := by
  simp only [runSequence, h, ht, Bool.false_eq_true, if_false]

end Sequence

theorem execPseudo_newFrameBytes (buf : Bytes) (s : State) :
    execPseudo (.newFrameBytes buf) s = runSequence [.parseFrame buf, .recompute] s := rfl

/-- Settles O54: after a PARSE_FRAME that succeeds the sequence goes on to a RECOMPUTE, which changes no field of the frame
just loaded (O20); one that fails ends it. -/
theorem newFrameBytesIsParseFrame : Obligations.NewFrameBytesIsParseFrame := by
  refine fun buf s t hparse => ⟨fun hok => ?_, fun hfailed => ?_⟩
  · obtain ⟨hidempotent, _⟩ := recomputeIdempotent
    rw [execPseudo_newFrameBytes, runSequence_cons_of_lastOk _ hparse hok, runSequence_singleton]
    exact hidempotent (.parseFrame buf) s t t hparse hok trivial rfl rfl
  · rw [execPseudo_newFrameBytes, runSequence_cons_of_not_lastOk _ hparse hfailed]

end Sys2Proof.Machine
end

section
/-! The constructors of a frame (R140, R141) and the setters (R143 to R145). -/

namespace Sys2Proof.Machine

/-- The frame derived from a payload and a `seq`, its header bytes and the payload's bytes written out (R51, R121). -/
theorem freshFrame_eq (P : Params) (q : Byte) (p : Payload) {pb h4 : Bytes} {dl : U16} (hpb : pb = encPayload P p)
    (hdl : dl = BitVec.ofNat 16 pb.length) (hh4 : h4 = [P.sof, lowByte dl, highByte dl, q]) :
    freshFrame P q p =
      { dl := dl, seq := q, hc := c8 P h4, tail := c16 P (h4 ++ [c8 P h4] ++ pb), payload := p, dirty := false } := by
  subst hpb
  rw [← recompute_freshFrame]
  exact recompute_eq P (freshFrame P q p) hdl hh4

theorem exec_newFrameStruct_typed {s : State} {p : Payload} (q : Byte) (h : structOperand s.params p = true) :
    exec (.newFrameStruct q p) s = s.finishSlot (.held (freshFrame s.params q p)) := if_pos h

theorem exec_setPayloadStruct_typed {s : State} {f : Frame} {p : Payload} (hs : s.slot = .held f)
    (h : structOperand s.params p = true) :
    exec (.setPayloadStruct p) s = s.finishSlot (.held (markDirty { f with payload := p })) :=
  (if_pos h).trans (onFrame_held _ hs)

theorem exec_setSeq_held {s : State} {f : Frame} (q : Byte) (hs : s.slot = .held f) :
    exec (.setSeq q) s = s.finishSlot (.held (markDirty { f with seq := q })) := onFrame_held _ hs

/-- Settles O25: the operand is well typed, so the slot takes the frame derived from it. -/
theorem newFrameStructLoads : Obligations.NewFrameStructLoads := by
  intro s q id v S pb h4 dl hS hv hpb hdl hh4
  have henc : pb = encPayload s.params (.struct id v) := by rw [hpb, encPayload_struct hS hv, le16_eq]
  rw [exec_newFrameStruct_typed q (structOperand_struct hS hv), freshFrame_eq s.params q _ henc hdl hh4]
  rfl

/-- Settles O27: the frame written is the one held with the new `seq`, marked Dirty. -/
theorem setSeqResult : Obligations.SetSeqResult := fun _ _ q hs => exec_setSeq_held q hs

/-- Settles O29: the operand is well typed, so the frame held takes it and is marked Dirty. -/
theorem setPayloadStructResult : Obligations.SetPayloadStructResult := fun _ _ _ _ _ hs hS hv =>
  exec_setPayloadStruct_typed hs (structOperand_struct hS hv)

/-- What NEW_FRAME_RAW and SET_PAYLOAD_RAW have in common: raw command bytes that fit a frame go through the dispatcher
(D16, D17), and the operation goes on with the payload it gives. -/
def State.onRawPayload (s : State) (buf : Bytes) (k : Payload → StepOutcome) : StepOutcome :=
  if rawFits buf then s.onParsed (parsePayload s.params buf) k else s.fail (.refuse .tooLong)

theorem exec_newFrameRaw_onRawPayload (q : Byte) (buf : Bytes) (s : State) :
    exec (.newFrameRaw q buf) s =
      s.onRawPayload buf fun p => s.finishSlot (.held (freshFrame s.params q p)) :=
  exec_newFrameRaw_eq q buf s

theorem exec_setPayloadRaw_onRawPayload {s : State} {f : Frame} (buf : Bytes) (hs : s.slot = .held f) :
    exec (.setPayloadRaw buf) s =
      s.onRawPayload buf fun p => s.finishSlot (.held (markDirty { f with payload := p })) :=
  (exec_setPayloadRaw_eq buf s).trans (onFrame_held _ hs)

section RawPayload
variable {s : State} {buf : Bytes} {k : Payload → StepOutcome}

theorem onRawPayload_tooLong (h : 65535 < buf.length) : s.onRawPayload buf k = s.fail (.refuse .tooLong) :=
  if_neg fun hfit => Nat.not_le.mpr h ((rawFits_iff buf).mp hfit)

theorem onRawPayload_fits (h : buf.length ≤ 65535) :
    s.onRawPayload buf k = s.onParsed (parsePayload s.params buf) k := if_pos ((rawFits_iff buf).mpr h)

theorem onRawPayload_error (h : buf.length ≤ 65535) {e : Failure} (he : parsePayload s.params buf = .error e) :
    s.onRawPayload buf k = s.fail e := by rw [onRawPayload_fits h, he, State.onParsed]

theorem onRawPayload_ok (h : buf.length ≤ 65535) {p : Payload} (hp : parsePayload s.params buf = .ok p) :
    s.onRawPayload buf k = k p := by rw [onRawPayload_fits h, hp, State.onParsed]

theorem onRawPayload_tooShort (h : buf.length < 2) : s.onRawPayload buf k = s.fail (.raise .tooShort .pay) :=
  onRawPayload_error (by omega) (parsePayload_short h)

end RawPayload

/-- GET_PAYLOAD_RAW gives the payload's serialized form and writes nothing (R151). -/
theorem exec_getPayloadRaw_held {s : State} {f : Frame} (hs : s.slot = .held f) :
    exec .getPayloadRaw s = .next (s.answer (okResponse (some (encPayload s.params f.payload)) none)) :=
  (onFrame_held _ hs).trans (finishBytes_eq s _)

/-- Settles O26: the bound first, then the dispatcher. The payload it gives has the bytes for its serialized form, so the
frame derived from it is over them, and GET_PAYLOAD_RAW gives them back. -/
theorem newFrameRawOutcomes : Obligations.NewFrameRawOutcomes := by
  intro s q
  simp only [exec_newFrameRaw_onRawPayload]
  refine ⟨fun buf hlong => onRawPayload_tooLong hlong, fun buf hshort => onRawPayload_tooShort hshort,
    fun lo hi rest h4 dl hfit hdl hh4 => ⟨fun S hS hw => ?_, fun p hp => ?_⟩⟩
  · exact onRawPayload_error hfit (parsePayload_lengthMismatch hS hw)
  · have hparse : parsePayload s.params (lo :: hi :: rest) = .ok p := by
      rcases hp with ⟨rfl, hnone⟩ | ⟨S, hS, hw, rfl⟩
      · exact parsePayload_unregistered hnone rest
      · exact parsePayload_registered hS hw
    obtain ⟨_, _, henc⟩ := parsePayload_ok hparse
    refine ⟨_, onRawPayload_ok hfit hparse, ?_, ?_⟩
    · rw [freshFrame_eq s.params q p henc.symm hdl hh4]
      rfl
    · rw [exec_getPayloadRaw_held rfl, ← henc]
      rfl

/-- Settles O28: the bound first, then the dispatcher; the frame held takes the payload and is marked Dirty. -/
theorem setPayloadRawOutcomes : Obligations.SetPayloadRawOutcomes := by
  intro s f hs
  simp only [exec_setPayloadRaw_onRawPayload _ hs]
  refine ⟨fun buf hlong => onRawPayload_tooLong hlong, fun buf hshort => onRawPayload_tooShort hshort,
    fun lo hi rest hfit => ⟨fun S hS hw => ?_, fun S hS hw => ?_, fun hnone => ?_⟩⟩
  · exact onRawPayload_error hfit (parsePayload_lengthMismatch hS hw)
  · exact onRawPayload_ok hfit (parsePayload_registered hS hw)
  · exact onRawPayload_ok hfit (parsePayload_unregistered hnone rest)

end Sys2Proof.Machine
end

section
/-! The GETs (R146 to R152) and DROP_FRAME (R153). -/

namespace Sys2Proof.Machine

/-- A GET whose result is a value read from the frame held. -/
theorem onFrame_finishValue_held {s : State} {f : Frame} (field : Frame → ResultValue) (hs : s.slot = .held f) :
    s.onFrame (fun g => s.finishValue (field g)) = .next (s.answer (okResponse none (some (field f)))) :=
  (onFrame_held _ hs).trans (finishValue_eq s _)

/-- Settles O30: every arm answers with a field of the frame held, and none looks at the flag. -/
theorem getterResults : Obligations.GetterResults := fun _ _ hs =>
  ⟨onFrame_finishValue_held (fun f => .u8 f.seq) hs,
    onFrame_finishValue_held (fun f => .u16 f.dl) hs,
    onFrame_finishValue_held (fun f => .u8 f.hc) hs,
    onFrame_finishValue_held (fun f => .u16 f.tail) hs,
    onFrame_finishValue_held (fun f => .u16 (cmdId f.payload)) hs,
    exec_getPayloadRaw_held hs,
    onFrame_finishValue_held (fun f => .payload f.payload) hs⟩

/-- A success with a value result names its value. -/
theorem value_of_finishValue {s t : State} {v w : ResultValue} (h : s.finishValue v = .next t)
    (hr : t.results.head? = some (okResponse none (some w))) : w = v := by
  obtain rfl := Host.Outcome.next.inj h
  have hval : some v = some w := congrArg Response.rVal (Option.some.inj hr)
  exact (Option.some.inj hval).symm

/-- GET_CMD_ID gives a value only where a frame is held, and then the id of its payload (R150). -/
theorem getCmdId_value {s t : State} {id : U16} (h : exec .getCmdId s = .next t)
    (hr : t.results.head? = some (okResponse none (some (.u16 id)))) : ∃ f, s.slot = .held f ∧ id = cmdId f.payload := by
  obtain ⟨f, hs, hfinish⟩ := onFrame_of_lastOk h (lastOk_of_head? hr)
  exact ⟨f, hs, ResultValue.u16.inj (value_of_finishValue hfinish hr)⟩

/-- GET_PAYLOAD_RAW gives bytes only where a frame is held, and then those of its payload (R151). -/
theorem getPayloadRaw_bytes {s t : State} {b : Bytes} (h : exec .getPayloadRaw s = .next t)
    (hr : t.results.head? = some (okResponse (some b) none)) :
    ∃ f, s.slot = .held f ∧ b = encPayload s.params f.payload := by
  obtain ⟨f, hs, hfinish⟩ := onFrame_of_lastOk h (lastOk_of_head? hr)
  exact ⟨f, hs, bytes_of_finish hfinish hr⟩

/-- Settles O31: both results are read from one payload, whose serialized form begins with its id, low byte first. -/
theorem cmdIdIsFirstTwoBytes : Obligations.CmdIdIsFirstTwoBytes := by
  intro s t u id b hcmd hraw hid hb
  obtain ⟨f, hs, rfl⟩ := getCmdId_value hcmd hid
  obtain ⟨g, hg, rfl⟩ := getPayloadRaw_bytes hraw hb
  obtain rfl : f = g := Slot.held.inj (hs.symm.trans hg)
  obtain ⟨rest, henc⟩ := encPayload_eq s.params f.payload
  exact ⟨_, _, rest, by rw [henc, le16_eq]; rfl, (assemble16_low_high _).symm⟩

theorem exec_dropFrame (s : State) : exec .dropFrame s = s.finishSlot .empty := rfl

/-- Settles O32: DROP_FRAME asks for no frame, and the empty slot is that of reset. -/
theorem dropFrameResult : Obligations.DropFrameResult := by
  intro s
  have hreset : State.reset.slot = .empty := rfl
  exact ⟨by rw [exec_dropFrame, hreset]; rfl, hreset⟩

end Sys2Proof.Machine
end

section
/-! The source's scenario (spec/95_test_vectors.md V1). -/

namespace Sys2Proof.Machine

/-- The only row of a registry is found under its id (R102). -/
theorem lookup_singleton {P : Params} {r : RegistryRow} (h : P.registry = [r]) : lookup P r.id = schemaOf r.schema := by
  obtain ⟨_, _, honly⟩ := lookupExactMatch
  refine honly P r ?_ fun q hq _ => ?_
  · rw [h]
    exact List.mem_singleton_self r
  · rw [h] at hq
    exact List.mem_singleton.mp hq

/-- The layout of the scenario's payload: one unsigned 16-bit field. -/
def scenarioLayout : List LayoutField := [{ name := "value", width := 2 }]

theorem layoutOk_scenarioLayout : layoutOk scenarioLayout = true := by decide

/-- The schema of the scenario's payload. -/
def scenarioSchema : Schema := layoutSchema scenarioLayout (layoutOk_width layoutOk_scenarioLayout)

theorem scenarioSchema_isVal : scenarioSchema.isVal [42] = true := rfl

theorem scenarioSchema_enc : scenarioSchema.enc [42] = [0x2A, 0x00] := rfl

theorem lookup_scenario {P : Params} (h : P.registry = [{ id := 0x0001, schema := .layout scenarioLayout }]) :
    lookup P 0x0001 = some scenarioSchema :=
  (lookup_singleton h).trans (schemaOf_layout layoutOk_scenarioLayout)

theorem encPayload_scenario {P : Params} (h : lookup P 0x0001 = some scenarioSchema) :
    encPayload P (.struct 0x0001 [42]) = [0x01, 0x00, 0x2A, 0x00] := by
  rw [encPayload_struct h scenarioSchema_isVal, scenarioSchema_enc]
  rfl

/-- Settles O58: NEW_FRAME_STRUCT loads the frame (O25), SERIALIZE_FRAME emits it (O17), and its payload has the four bytes
of the id 1 and the value 42. -/
theorem scenarioOfTheSource : Obligations.ScenarioOfTheSource := by
  intro s a8 a16 hreg ha8 ha16
  have hlookup : lookup s.params 0x0001 = some scenarioSchema := lookup_scenario hreg
  refine ⟨_, _, exec_newFrameStruct_typed 5 (structOperand_struct hlookup scenarioSchema_isVal),
    serializeFrameResult _ _ [0x01, 0x00, 0x2A, 0x00] _ 4 a8 a16 rfl (encPayload_scenario hlookup).symm rfl ha8 rfl ha16,
    rfl⟩

end Sys2Proof.Machine
end

section
/-! Atomic failure, and what follows an operation that failed (R180, R181). -/

namespace Sys2Proof.Machine

@[simp] theorem failResponse_rBuf (e : Failure) : (failResponse e).rBuf = none := by cases e <;> rfl
@[simp] theorem failResponse_rVal (e : Failure) : (failResponse e).rVal = none := by cases e <;> rfl

/-- Settles O37: of the two ways an operation ends, a failure is its result and nothing else, and a success has the
status `ok`. -/
theorem atomicFailure : Obligations.AtomicFailure := by
  intro i s t hexec
  rcases exec_failsOrFinishes i s with ⟨e, hfail⟩ | ⟨y, b, v, hfinish⟩
  · obtain rfl := Host.Outcome.next.inj (hexec.symm.trans hfail)
    exact ⟨failResponse e, rfl, fun _ => ⟨rfl, failResponse_rBuf e, failResponse_rVal e⟩⟩
  · obtain rfl := Host.Outcome.next.inj (hexec.symm.trans hfinish)
    exact ⟨okResponse b v, rfl, fun hfailed => absurd (okResponse_st b v) hfailed⟩

/-- An operation whose result is no success left that result and nothing else (R180). -/
theorem eq_answer_of_not_lastOk {i : Instr} {s t : State} (h : exec i s = .next t) (ht : lastOk t = false) :
    ∃ r, t = s.answer r := by
  obtain ⟨r, hresults, hatomic⟩ := atomicFailure i s t h
  have hne : r.st ≠ .ok := fun hok => by simp [lastOk, hresults, hok] at ht
  obtain ⟨hkept, _⟩ := hatomic hne
  exact ⟨r, hkept⟩

/-- One result more in the host's hands makes no difference to an operation: it writes the same slot and gives the same
result (R181). -/
theorem exec_answer (i : Instr) (s : State) (r : Response) :
    ∃ y p, exec i s = .next ((s.withSlot y).answer p) ∧
      exec i (s.answer r) = .next (((s.answer r).withSlot y).answer p) := by
  rcases exec_slot_params_only i s.slot s.params s.requests s.requests s.results (r :: s.results) with
    ⟨e, hfail, hfail'⟩ | ⟨y, b, v, hfinish, hfinish'⟩
  · exact ⟨s.slot, failResponse e, hfail, hfail'⟩
  · exact ⟨y, okResponse b v, hfinish, hfinish'⟩

/-- Settles O39: the failed operation left one result more, which no operation reads. -/
theorem failureLeavesNoTrace : Obligations.FailureLeavesNoTrace := by
  intro i j s t u v hexec hfailed hu hv
  obtain ⟨r, rfl⟩ := eq_answer_of_not_lastOk hexec hfailed
  obtain ⟨y, p, hwithout, hafter⟩ := exec_answer j s r
  obtain rfl := Host.Outcome.next.inj (hu.symm.trans hwithout)
  obtain rfl := Host.Outcome.next.inj (hv.symm.trans hafter)
  exact ⟨rfl, rfl, rfl, rfl⟩

end Sys2Proof.Machine
end

section
/-! The tables of the error kinds and the refusals (R170, R177, R178). -/

namespace Sys2Proof.Machine

/-- The failures the tables admit for an operation, with `ILLEGAL` only where the operands are not well formed (R178). -/
inductive MayFail (P : Params) (i : Instr) : Failure → Prop
  | raise {k : ErrKind} {g : Stage} (h : mayRaise i k g = true) : MayFail P i (.raise k g)
  | noFrame (h : mayRefuse i .noFrame = true) : MayFail P i (.refuse .noFrame)
  | tooLong (h : mayRefuse i .tooLong = true) : MayFail P i (.refuse .tooLong)
  | illegal (h : mayRefuse i .illegal = true) (hw : wellFormed P i = false) : MayFail P i (.refuse .illegal)

/-- The outcome is a success or a failure of the tables. -/
def EndsWithinTables (s : State) (i : Instr) (o : StepOutcome) : Prop :=
  (∃ e, MayFail s.params i e ∧ o = s.fail e) ∨ ∃ y b v, o = s.finish y b v

section Outcomes
variable {s : State} {i : Instr}

theorem endsWithinTables_fail {e : Failure} (he : MayFail s.params i e) : EndsWithinTables s i (s.fail e) :=
  .inl ⟨e, he, rfl⟩

theorem endsWithinTables_finish (y : Slot) (b : Option Bytes) (v : Option ResultValue) :
    EndsWithinTables s i (s.finish y b v) :=
  .inr ⟨y, b, v, rfl⟩

theorem endsWithinTables_onFrame {k : Frame → StepOutcome} (hmay : mayRefuse i .noFrame = true)
    (hk : ∀ f, EndsWithinTables s i (k f)) : EndsWithinTables s i (s.onFrame k) := by
  rcases onFrame_cases s k with ⟨_, hfail⟩ | ⟨f, _, hheld⟩
  · exact hfail ▸ endsWithinTables_fail (.noFrame hmay)
  · exact hheld ▸ hk f

theorem endsWithinTables_onParsed {α : Type} {r : Except Failure α} {k : α → StepOutcome}
    (he : ∀ e, r = .error e → MayFail s.params i e) (hk : ∀ a, EndsWithinTables s i (k a)) :
    EndsWithinTables s i (s.onParsed r k) := by
  cases r with
  | error e => exact endsWithinTables_fail (he e rfl)
  | ok a => exact hk a

/-- A check of the operands, and the refusal where they fail it. -/
theorem endsWithinTables_check {c : Bool} {o : StepOutcome} {e : Failure} (he : c = false → MayFail s.params i e)
    (ho : EndsWithinTables s i o) : EndsWithinTables s i (if c then o else s.fail e) := by
  cases c with
  | true => exact ho
  | false => exact endsWithinTables_fail (he rfl)

end Outcomes

theorem mayFail_of_parseHeader {P : Params} {buf b : Bytes} {e : Failure} (h : parseHeader P buf = .error e) :
    MayFail P (.parseHeader b) e := by
  rcases parseHeader_error h with rfl | rfl | rfl <;> exact .raise rfl

/-- The operations that send bytes through the dispatcher can fail as it does (R171, R175). -/
theorem mayFail_of_parsePayload {P : Params} {i : Instr} {buf : Bytes} {e : Failure}
    (hshort : mayRaise i .tooShort .pay = true) (hlength : mayRaise i .schemaLengthMismatch .pay = true)
    (h : parsePayload P buf = .error e) : MayFail P i e := by
  rcases parsePayload_error h with ⟨rfl, _⟩ | rfl
  · exact .raise hshort
  · exact .raise hlength

theorem mayFail_of_parseFrame {P : Params} {buf b : Bytes} {e : Failure} (h : parseFrame P buf = .error e) :
    MayFail P (.parseFrame b) e := by
  rcases parseFrame_error h with (rfl | rfl | rfl) | rfl | rfl | rfl | rfl | rfl <;> exact .raise rfl

/-- Every operation, on every state, ends in a success or a failure of the tables. -/
theorem exec_endsWithinTables (i : Instr) (s : State) : EndsWithinTables s i (exec i s) := by
  cases i
  case checksum8 | checksum16 | serializeHeader | dropFrame => exact endsWithinTables_finish _ _ _
  case parseHeader buf =>
    rw [exec_parseHeader_eq]
    exact endsWithinTables_onParsed (fun _ => mayFail_of_parseHeader) fun _ => endsWithinTables_finish _ _ _
  case parsePayload buf =>
    rw [exec_parsePayload_eq]
    exact endsWithinTables_onParsed (fun _ => mayFail_of_parsePayload rfl rfl) fun _ => endsWithinTables_finish _ _ _
  case parseFrame buf =>
    rw [exec_parseFrame_eq]
    exact endsWithinTables_onParsed (fun _ => mayFail_of_parseFrame) fun _ => endsWithinTables_finish _ _ _
  case serializePayload pay | newFrameStruct q pay =>
    exact endsWithinTables_check (fun huntyped => .illegal rfl huntyped) (endsWithinTables_finish _ _ _)
  case newFrameRaw q buf =>
    rw [exec_newFrameRaw_eq]
    exact endsWithinTables_check (fun _ => .tooLong rfl) <|
      endsWithinTables_onParsed (fun _ => mayFail_of_parsePayload rfl rfl) fun _ => endsWithinTables_finish _ _ _
  case setPayloadRaw buf =>
    rw [exec_setPayloadRaw_eq]
    exact endsWithinTables_onFrame rfl fun _ => endsWithinTables_check (fun _ => .tooLong rfl) <|
      endsWithinTables_onParsed (fun _ => mayFail_of_parsePayload rfl rfl) fun _ => endsWithinTables_finish _ _ _
  case setPayloadStruct pay =>
    exact endsWithinTables_check (fun huntyped => .illegal rfl huntyped) <|
      endsWithinTables_onFrame rfl fun _ => endsWithinTables_finish _ _ _
  case recompute | serializeFrame | setSeq | getSeq | getDataLength | getHeaderChecksum | getFrameTail | getCmdId
    | getPayloadRaw | getPayloadStruct =>
    exact endsWithinTables_onFrame rfl fun _ => endsWithinTables_finish _ _ _

/-- The result of an operation is that of a success or of a failure of the tables. -/
theorem exec_result {i : Instr} {s t : State} {r : Response} (h : exec i s = .next t) (hr : t.results.head? = some r) :
    (∃ e, MayFail s.params i e ∧ r = failResponse e) ∨ ∃ b v, r = okResponse b v := by
  rcases exec_endsWithinTables i s with ⟨e, he, hfail⟩ | ⟨y, b, v, hfinish⟩
  · obtain rfl := Host.Outcome.next.inj (h.symm.trans hfail)
    exact .inl ⟨e, he, (Option.some.inj hr).symm⟩
  · obtain rfl := Host.Outcome.next.inj (h.symm.trans hfinish)
    exact .inr ⟨b, v, (Option.some.inj hr).symm⟩

/-- Settles O38: a success has stage 0; a failure of the tables carries its kind and stage, a refusal stage 0. -/
theorem errorsAreThoseOfTheTable : Obligations.ErrorsAreThoseOfTheTable := by
  intro i s t r hexec hr
  rcases exec_result hexec hr with ⟨e, he, rfl⟩ | ⟨b, v, rfl⟩
  · cases he with
    | raise hraise => exact hraise
    | noFrame hmay => exact ⟨hmay, rfl⟩
    | tooLong hmay => exact ⟨hmay, rfl⟩
    | illegal hmay _ => exact ⟨hmay, rfl⟩
  · exact okResponse_stage b v

end Sys2Proof.Machine
end

section
/-! Every operation ends, and every run goes on (R182). -/

namespace Sys2Proof.Machine

/-- `ILLEGAL` is for an ill-typed payload operand (R178, D10). -/
theorem illTyped_of_mayRefuse_illegal {P : Params} {i : Instr} (hmay : mayRefuse i .illegal = true)
    (hw : wellFormed P i = false) :
    (∃ p, i = .serializePayload p ∧ payloadTyped P p = false) ∨
      (∃ q p, i = .newFrameStruct q p ∧ structOperand P p = false) ∨
      ∃ p, i = .setPayloadStruct p ∧ structOperand P p = false := by
  cases i
  case serializePayload p => exact .inl ⟨p, rfl, hw⟩
  case newFrameStruct q p => exact .inr (.inl ⟨q, p, rfl, hw⟩)
  case setPayloadStruct p => exact .inr (.inr ⟨p, rfl, hw⟩)
  all_goals cases hmay

theorem step_total (s : State) : ∃ t, step s = .next t := by
  rcases step_cases s with ⟨_, hidle⟩ | ⟨_, _, _, _, _, hreject⟩ | ⟨_, _, i, _, _, hexec⟩
  · exact ⟨_, hidle⟩
  · exact ⟨_, hreject⟩
  · obtain ⟨u, _, hu, _⟩ := exec_one_result i s
    rw [hu] at hexec
    exact ⟨_, hexec⟩

/-- A machine whose every step has a next state runs for any number of steps. -/
theorem run_total {M : Host.Core} (hstep : ∀ s, ∃ t, M.step s = .next t) (n : Nat) (s : M.State) :
    ∃ t, M.run n s = .next t := by
  induction n generalizing s with
  | zero => exact ⟨s, rfl⟩
  | succ n ih =>
    obtain ⟨u, hu⟩ := hstep s
    obtain ⟨t, ht⟩ := ih u
    exact ⟨t, by simp only [Host.Core.run, hu, ht]⟩

/-- Settles O40: each result is a success or a failure of the tables, where `ILLEGAL` needs an ill-typed operand; and every
step has a next state. -/
theorem nothingStopsTheMachine : Obligations.NothingStopsTheMachine := by
  refine ⟨fun i s => ?_, fun s n => run_total (M := Sys2Proof.core) step_total n s⟩
  obtain ⟨t, r, ht, hresults⟩ := exec_one_result i s
  have hr : t.results.head? = some r := by rw [hresults, List.head?_cons]
  refine ⟨t, r, ht, hr, ?_⟩
  rcases exec_result ht hr with ⟨e, he, rfl⟩ | ⟨b, v, rfl⟩
  · cases he with
    | raise _ => exact .inr (.inl ⟨_, rfl⟩)
    | noFrame _ => exact .inr (.inr (.inl rfl))
    | tooLong _ => exact .inr (.inr (.inr (.inl rfl)))
    | illegal hmay hw => exact .inr (.inr (.inr (.inr ⟨rfl, illTyped_of_mayRefuse_illegal hmay hw⟩)))
  · exact .inl (okResponse_st b v)

/-- Settles O53: with no record issued, of the three things a step can do only idling is left. -/
theorem idleKeepsTheState : Obligations.IdleKeepsTheState := by
  intro s hnone
  rcases step_cases s with ⟨_, hidle⟩ | ⟨_, _, _, hreq, _⟩ | ⟨_, _, _, hreq, _⟩
  · exact hidle
  · cases hnone.symm.trans hreq
  · cases hnone.symm.trans hreq

end Sys2Proof.Machine
end

section
/-! The refusals `NO_FRAME` and `ILLEGAL` (R178, R179), and the numbers of statuses and stages (R170, R177). -/

namespace Sys2Proof.Machine

/-- Settles O33: every operation on the frame asks for it first, but for SET_PAYLOAD_STRUCT, whose operand passes the check
before. -/
theorem noFrameRefusals : Obligations.NoFrameRefusals := by
  intro s i hs hi
  cases i
  case recompute | serializeFrame | setSeq | setPayloadRaw | getSeq | getDataLength | getHeaderChecksum | getFrameTail
    | getCmdId | getPayloadRaw | getPayloadStruct => exact onFrame_empty _ hs
  case setPayloadStruct p => exact (if_pos hi).trans (onFrame_empty _ hs)
  all_goals exact hi.elim

theorem payloadTyped_struct_eq_false {P : Params} {id : U16} {v : Value}
    (h : ∀ S, lookup P id = some S → S.isVal v = false) : payloadTyped P (.struct id v) = false := by
  refine eq_false_of_ne_true fun htyped => ?_
  obtain ⟨S, hS, hv⟩ := payloadTyped_struct.mp htyped
  exact absurd hv (ne_true_of_eq_false (h S hS))

theorem structOperand_raw (P : Params) (id : U16) (data : Bytes) : structOperand P (.raw id data) = false := rfl

theorem exec_newFrameStruct_illegal {s : State} {p : Payload} (q : Byte) (h : structOperand s.params p = false) :
    exec (.newFrameStruct q p) s = s.fail (.refuse .illegal) := if_neg (ne_true_of_eq_false h)

/-- The operand is checked before the slot (R179). -/
theorem exec_setPayloadStruct_illegal {s : State} {p : Payload} (h : structOperand s.params p = false) :
    exec (.setPayloadStruct p) s = s.fail (.refuse .illegal) := if_neg (ne_true_of_eq_false h)

/-- Settles O34: a `Struct` whose value is none of a registered schema's is no `Payload`, a `Raw` is no `Struct`, and the
check of the operand is the first of each operation. -/
theorem illegalOperands : Obligations.IllegalOperands := by
  refine fun s q => ⟨fun id v hnone => ?_, fun id data => ?_⟩
  · have huntyped : payloadTyped s.params (.struct id v) = false := payloadTyped_struct_eq_false hnone
    exact ⟨exec_serializePayload_untyped huntyped, exec_newFrameStruct_illegal q huntyped,
      exec_setPayloadStruct_illegal huntyped⟩
  · exact ⟨exec_newFrameStruct_illegal q (structOperand_raw s.params id data),
      exec_setPayloadStruct_illegal (structOperand_raw s.params id data)⟩

/-- Settles O36: the rows of `statusCode` and `stageCode`. -/
theorem statusNumbers : Obligations.StatusNumbers := by
  unfold Obligations.StatusNumbers
  and_intros
  all_goals rfl

end Sys2Proof.Machine
end

section
/-! `seq` is the host's (R208). -/

namespace Sys2Proof.Machine

section SlotAfterSuccess
variable {s t : State} {q : Byte}

/-- NEW_FRAME_STRUCT and NEW_FRAME_RAW load a frame with the `seq` they are given (R140, R141). -/
theorem newFrame_slot_of_lastOk {i : Instr} (hi : (∃ p, i = .newFrameStruct q p) ∨ ∃ b, i = .newFrameRaw q b)
    (h : exec i s = .next t) (ht : lastOk t = true) : ∃ p, t.slot = .held (freshFrame s.params q p) := by
  rcases hi with ⟨p, rfl⟩ | ⟨b, rfl⟩
  · exact ⟨p, slot_of_finish (check_of_lastOk h ht)⟩
  · rw [exec_newFrameRaw_eq] at h
    obtain ⟨p, _, hfinish⟩ := onParsed_of_lastOk (check_of_lastOk h ht) ht
    exact ⟨p, slot_of_finish hfinish⟩

/-- SET_SEQ writes the `seq` it is given (R143). -/
theorem setSeq_slot_of_lastOk (h : exec (.setSeq q) s = .next t) (ht : lastOk t = true) :
    ∃ f, s.slot = .held f ∧ t.slot = .held (markDirty { f with seq := q }) := by
  obtain ⟨f, hs, hfinish⟩ := onFrame_of_lastOk h ht
  exact ⟨f, hs, slot_of_finish hfinish⟩

/-- SET_PAYLOAD_RAW and SET_PAYLOAD_STRUCT write the payload of the frame held, and not its `seq` (R144, R145). -/
theorem setPayload_slot_of_lastOk {i : Instr} (hi : (∃ b, i = .setPayloadRaw b) ∨ ∃ p, i = .setPayloadStruct p)
    (h : exec i s = .next t) (ht : lastOk t = true) :
    ∃ f p, s.slot = .held f ∧ t.slot = .held (markDirty { f with payload := p }) := by
  rcases hi with ⟨b, rfl⟩ | ⟨p, rfl⟩
  · rw [exec_setPayloadRaw_eq] at h
    obtain ⟨f, hs, hchecked⟩ := onFrame_of_lastOk h ht
    obtain ⟨p, _, hfinish⟩ := onParsed_of_lastOk (check_of_lastOk hchecked ht) ht
    exact ⟨f, p, hs, slot_of_finish hfinish⟩
  · obtain ⟨f, hs, hfinish⟩ := onFrame_of_lastOk (check_of_lastOk h ht) ht
    exact ⟨f, p, hs, slot_of_finish hfinish⟩

end SlotAfterSuccess

/-- The byte at offset 3 of a frame is its `seq` (R51). -/
theorem frameBytes_getElem?_three (P : Params) (f : Frame) : (frameBytes P f)[3]? = some f.seq := rfl

/-- A `seq` that stands in the slot after an operation: the one held before, one the host gave, or that of the buffer
parsed (R208). -/
def SeqSource (x : Slot) (i : Instr) (q : Byte) : Prop :=
  (∃ f, x = .held f ∧ q = f.seq) ∨ i = .setSeq q ∨ (∃ p, i = .newFrameStruct q p) ∨ (∃ b, i = .newFrameRaw q b) ∨
    ∃ b, i = .parseFrame b ∧ b[3]? = some q

/-- A success leaves no other `seq` (R208). -/
theorem seqSource_of_lastOk {i : Instr} {s t : State} {g : Frame} (h : exec i s = .next t) (ht : lastOk t = true)
    (hg : t.slot = .held g) : SeqSource s.slot i g.seq := by
  have hleaves := exec_leavesSlot h ht
  cases i
  case parseFrame buf =>
    obtain ⟨f, hf, rfl⟩ := exec_parseFrame_of_lastOk h ht
    obtain rfl : f = g := Slot.held.inj hg
    obtain ⟨rfl, _⟩ := parseFrame_ok hf
    exact .inr (.inr (.inr (.inr ⟨_, rfl, frameBytes_getElem?_three _ _⟩)))
  case newFrameStruct q pay =>
    obtain ⟨p, hslot⟩ := newFrame_slot_of_lastOk (.inl ⟨pay, rfl⟩) h ht
    obtain rfl := Slot.held.inj (hg.symm.trans hslot)
    exact .inr (.inr (.inl ⟨pay, rfl⟩))
  case newFrameRaw q buf =>
    obtain ⟨p, hslot⟩ := newFrame_slot_of_lastOk (.inr ⟨buf, rfl⟩) h ht
    obtain rfl := Slot.held.inj (hg.symm.trans hslot)
    exact .inr (.inr (.inr (.inl ⟨buf, rfl⟩)))
  case setSeq q =>
    obtain ⟨f, _, hslot⟩ := setSeq_slot_of_lastOk h ht
    obtain rfl := Slot.held.inj (hg.symm.trans hslot)
    exact .inr (.inl rfl)
  case setPayloadRaw buf =>
    obtain ⟨f, p, hs, hslot⟩ := setPayload_slot_of_lastOk (.inl ⟨buf, rfl⟩) h ht
    obtain rfl := Slot.held.inj (hg.symm.trans hslot)
    exact .inl ⟨f, hs, rfl⟩
  case setPayloadStruct pay =>
    obtain ⟨f, p, hs, hslot⟩ := setPayload_slot_of_lastOk (.inr ⟨pay, rfl⟩) h ht
    obtain rfl := Slot.held.inj (hg.symm.trans hslot)
    exact .inl ⟨f, hs, rfl⟩
  case recompute | serializeFrame =>
    obtain ⟨f, hs, hslot⟩ := hleaves
    obtain rfl := Slot.held.inj (hg.symm.trans hslot)
    exact .inl ⟨f, hs, recompute_seq _ f⟩
  case getSeq | getDataLength | getHeaderChecksum | getFrameTail | getCmdId | getPayloadRaw | getPayloadStruct =>
    obtain ⟨_, _, hkept⟩ := hleaves
    exact .inl ⟨g, hkept.symm.trans hg, rfl⟩
  case dropFrame => cases hg.symm.trans hleaves
  case checksum8 | checksum16 | parseHeader | serializeHeader | parsePayload | serializePayload =>
    exact .inl ⟨g, hleaves.symm.trans hg, rfl⟩

theorem seqSource_of_exec {i : Instr} {s t : State} {g : Frame} (h : exec i s = .next t) (hg : t.slot = .held g) :
    SeqSource s.slot i g.seq := by
  cases ht : lastOk t with
  | true => exact seqSource_of_lastOk h ht hg
  | false => exact .inl ⟨g, (slot_of_not_lastOk h ht).symm.trans hg, rfl⟩

/-- Settles O35: the constructors load a frame derived with the `seq` given; the bytes of a sound frame parse whatever `seq`
SET_SEQ gave it before; and `SeqSource` lists where the `seq` after an operation comes from. -/
theorem sequenceNumberIsTheHosts : Obligations.SequenceNumberIsTheHosts := by
  refine ⟨fun q i s t hexec hok hi => ?_, fun s f q hInv hs => ?_, fun _ _ _ _ => seqSource_of_exec⟩
  · obtain ⟨p, hslot⟩ := newFrame_slot_of_lastOk hi hexec hok
    exact ⟨_, hslot, freshFrame_seq s.params q p⟩
  · have hparse := (hInv f hs).storable.parseFrame_recompute (f := markDirty { f with seq := q })
    exact ⟨_, _, _, exec_setSeq_held q hs, exec_serializeFrame_held rfl, rfl, _, _, exec_parseFrame_ok hparse, rfl, rfl,
      recompute_seq s.params _⟩

end Sys2Proof.Machine
end

section
/-! Frames between instances that share `SOF`, `c8` and `c16` (R209), and frames that differ in stale fields (R205). -/

namespace Sys2Proof.Machine

/-- Settles O24: the slot left and the bytes emitted are those of the recomputed frame, which is a function of payload and
`seq`. -/
theorem staleFieldsNeverSerialized : Obligations.StaleFieldsNeverSerialized := by
  intro s u t v f g hs hu hP hq hp ht hv
  have hsame : recompute u.params f = recompute u.params g := recompute_congr u.params hp hq
  obtain rfl := Host.Outcome.next.inj ((exec_serializeFrame_held hs).symm.trans ht)
  obtain rfl := Host.Outcome.next.inj ((exec_serializeFrame_held hu).symm.trans hv)
  simp only [answer_slot, withSlot_slot, answer_results, List.head?_cons, hP, hsame, and_self]

section Wire
variable {P Q : Params}

theorem headerBytes_sameWire (h : sameWire P Q) (dl : U16) (q : Byte) : headerBytes P dl q = headerBytes Q dl q := by
  obtain ⟨hsof, h8, _⟩ := h
  simp only [headerBytes, headerChecksum, headerPrefix, hsof, h8]

/-- Payloads with the same bytes go out in the same frame, whatever each registry makes of them (R53, R122). -/
theorem frameBytes_freshFrame_sameWire (h : sameWire P Q) (q : Byte) {p r : Payload}
    (henc : encPayload P p = encPayload Q r) :
    frameBytes P (freshFrame P q p) = frameBytes Q (freshFrame Q q r) := by
  have hcovered : coveredBytes P q p = coveredBytes Q q r := by
    rw [coveredBytes, coveredBytes, payloadLength, payloadLength, henc, headerBytes_sameWire h]
  obtain ⟨_, _, h16⟩ := h
  show coveredBytes P q p ++ le16 (c16 P (coveredBytes P q p)) = coveredBytes Q q r ++ le16 (c16 Q (coveredBytes Q q r))
  rw [hcovered, h16]

/-- The frame of a payload that the dispatcher turns away fails as the dispatcher does (R120 step 4). -/
theorem parseFrame_freshFrame_payloadError {q : Byte} {p : Payload} {e : Failure} (hfits : (encPayload P p).length ≤ pmax)
    (hp : parsePayload P (encPayload P p) = .error e) : parseFrame P (frameBytes P (freshFrame P q p)) = .error e := by
  have hh := parseHeader_headerBytes P (payloadLength P p) q
    (encPayload P p ++ [lowByte (freshFrame P q p).tail, highByte (freshFrame P q p).tail])
  rw [← List.append_assoc] at hh
  rw [frameBytes, le16_eq]
  exact parseFrame_payloadError (headerBytes_length ..) hh (payloadLength_toNat hfits).symm
    (assemble16_low_high (freshFrame P q p).tail).symm hp

/-- A raw payload of a registered id and another width (R103). -/
theorem parsePayload_encPayload_raw_lengthMismatch {id : U16} {data : Bytes} {S : Schema} (hS : lookup P id = some S)
    (hw : data.length ≠ S.width) :
    parsePayload P (encPayload P (.raw id data)) = .error (.raise .schemaLengthMismatch .pay) := by
  rw [← assemble16_low_high id] at hS
  rw [encPayload_raw, le16_eq]
  exact parsePayload_lengthMismatch hS hw

end Wire

/-- Settles O57: on the wire the sender's frame is the one the receiver would emit for the `Raw` of its bytes; the receiver
parses it back where the id is unknown to it, and its dispatcher turns it away where the width is another. -/
theorem interoperability : Obligations.Interoperability := by
  intro s t u f b hInv hs hwire hexec hb
  have hf : FrameInv s.params f := hInv f hs
  obtain ⟨data, hdata⟩ := encPayload_eq s.params f.payload
  have henc : encPayload s.params f.payload = encPayload u.params (.raw (cmdId f.payload) data) := hdata
  have hfits : (encPayload u.params (.raw (cmdId f.payload) data)).length ≤ pmax := henc ▸ hf.len.2
  obtain rfl : b = frameBytes u.params (freshFrame u.params f.seq (.raw (cmdId f.payload) data)) := by
    obtain ⟨k, hk, rfl⟩ := serializeFrame_bytes hexec hb
    obtain rfl : f = k := Slot.held.inj (hs.symm.trans hk)
    exact frameBytes_freshFrame_sameWire hwire f.seq henc
  refine ⟨fun hnone => ?_, fun S hS hwidth => ?_⟩
  · have hparse : parseFrame u.params _ = .ok (freshFrame u.params f.seq (.raw (cmdId f.payload) data)) :=
      parseFrame_frameBytes rfl (fun id _ hraw => by cases hraw; exact hnone) hfits
    exact ⟨_, _, _, exec_parseFrame_ok hparse, rfl, rfl, ⟨data, rfl⟩, exec_serializeFrame_held rfl, rfl⟩
  · have hw : data.length ≠ S.width := by
      rw [hdata, List.length_append, le16_length] at hwidth
      omega
    exact exec_parseFrame_error
      (parseFrame_freshFrame_payloadError hfits (parsePayload_encPayload_raw_lengthMismatch hS hw))

end Sys2Proof.Machine
end

section
/-! The reset state and the first operation after it (R200, R201, R203). -/

namespace Sys2Proof.Machine

/-- Settles O46: the fields of `State.reset`. -/
theorem resetState : Obligations.ResetState := ⟨rfl, rfl, rfl, rfl, rfl⟩

/-- Only the operations of its row in the table of R178 end with `NO_FRAME`. -/
theorem result_ne_noFrame {i : Instr} {s t : State} (h : exec i s = .next t) (hmay : mayRefuse i .noFrame = false) :
    t.results.head? ≠ some (failResponse (.refuse .noFrame)) := by
  intro hr
  obtain ⟨htable, _⟩ : mayRefuse i .noFrame = true ∧ _ := errorsAreThoseOfTheTable i s t _ h hr
  exact absurd htable (ne_true_of_eq_false hmay)

/-- An operation that loads the slot (R120, R140, R141) holds a frame after it, where none was held before, exactly when
it succeeds. -/
theorem fv_eq_lastOk_of_loads {i : Instr} {s t : State} (h : exec i s = .next t) (hs : s.slot = .empty)
    (hloads : lastOk t = true → ∃ f, t.slot = .held f) : t.fv = lastOk t := by
  cases ht : lastOk t with
  | true =>
    obtain ⟨f, hslot⟩ := hloads ht
    rw [State.fv, hslot]
  | false => rw [State.fv, slot_of_not_lastOk h ht, hs]

/-- An operation whose success leaves an empty slot empty leaves it so in any case (R180). -/
theorem slot_eq_empty {i : Instr} {s t : State} (h : exec i s = .next t) (hs : s.slot = .empty)
    (hok : lastOk t = true → t.slot = .empty) : t.slot = .empty := by
  cases ht : lastOk t with
  | true => exact hok ht
  | false => exact (slot_of_not_lastOk h ht).trans hs

/-- With no frame held SET_PAYLOAD_STRUCT is refused, for its operand first (R178, R179). -/
theorem exec_setPayloadStruct_empty {s : State} (p : Payload) (hs : s.slot = .empty) :
    exec (.setPayloadStruct p) s = s.fail (.refuse (if structOperand s.params p then .noFrame else .illegal)) := by
  cases hp : structOperand s.params p with
  | true => exact noFrameRefusals s (.setPayloadStruct p) hs hp
  | false => exact exec_setPayloadStruct_illegal hp

/-- Settles O47: the slot is empty at reset, so an operation on the frame is refused (O33) unless its operand is (O34); for
the others, `LeavesSlot` says what a success leaves, and the table of R178 has no `NO_FRAME`. -/
theorem firstOperationAfterReset : Obligations.FirstOperationAfterReset := by
  intro i t hexec
  have hleaves (hok : lastOk t = true) := exec_leavesSlot hexec hok
  cases i
  case checksum8 | checksum16 | parseHeader | serializeHeader | parsePayload | serializePayload | dropFrame =>
    exact ⟨slot_eq_empty hexec rfl hleaves, result_ne_noFrame hexec rfl⟩
  case parseFrame | newFrameStruct | newFrameRaw =>
    refine ⟨fv_eq_lastOk_of_loads hexec rfl fun hok => ?_, result_ne_noFrame hexec rfl⟩
    obtain ⟨q, p, hslot⟩ := hleaves hok
    exact ⟨_, hslot⟩
  case setPayloadStruct pay =>
    exact Host.Outcome.next.inj (hexec.symm.trans (exec_setPayloadStruct_empty pay rfl))
  case recompute | serializeFrame | setSeq | setPayloadRaw | getSeq | getDataLength | getHeaderChecksum | getFrameTail
    | getCmdId | getPayloadRaw | getPayloadStruct =>
    exact Host.Outcome.next.inj (hexec.symm.trans (noFrameRefusals _ _ rfl trivial))

end Sys2Proof.Machine
end
